-- ==== Sys2Proof/Word.lean ====
section
/-! DEFINITION. The word types of the block: bytes, 4-bit fields and 16-bit port words (00_scope.md R11, R12). -/

namespace Sys2Proof

/-- An 8-bit unsigned value: an accumulator, an input byte or a character code (R11). -/
abbrev Byte := BitVec 8

/-- A 4-bit unsigned field: OP, A, SRC or Z4 of a command word, FCODE, NINST_M1 or half of a byte
(R28, R61, R124). -/
abbrev Nibble := BitVec 4

/-- A command word as the port takes it (R60). -/
abbrev CommandWord := BitVec 16

/-- The 16-bit data part of a response, and the STATUS register as the host reads it (R27, R28). -/
abbrev DataWord := BitVec 16

end Sys2Proof
end

