-- ==== Sys2Proof/Syntax.lean ====
section
/-! DEFINITION. The ten commands of spec/opcode_table.json (30_encoding.md R64), as the decoder delivers them:
a slot operand is an index, the input byte is raw (R63). -/

namespace Sys2Proof

/-- One constructor per row of the opcode map (R64). -/
inductive Instr where
  /-- `NEW sA`: construct an engine in slot A (R101). -/
  | new (a : Nat)
  /-- `UPD sA, imm8`: fold one byte into slot A (R103). -/
  | upd (a : Nat) (imm : Byte)
  /-- `REJ.TEXT sA`: an update whose argument was unencoded text (R106). -/
  | rejText (a : Nat)
  /-- `REJ.OTHER sA`: an update whose argument was any other value that is no byte sequence (R106). -/
  | rejOther (a : Nat)
  /-- `DIG sA`: the digest of slot A (R120). -/
  | dig (a : Nat)
  /-- `HEX sA`: the digest of slot A as two lowercase hexadecimal characters (R123). -/
  | hex (a : Nat)
  /-- `CPY sD, sS`: clone slot S into the free slot D (R135). -/
  | cpy (d src : Nat)
  /-- `REL sA`: free slot A (R140). -/
  | rel (a : Nat)
  /-- `ATTR.DSZ sA`: the constant digest_size (R126). -/
  | attrDsz (a : Nat)
  /-- `ATTR.BSZ sA`: the constant block_size (R128). -/
  | attrBsz (a : Nat)
deriving DecidableEq, Repr

end Sys2Proof
end

