-- ==== Sys2Proof/WellFormed.lean ====
section
/-! DEFINITION. Which commands have an encoding: every slot operand fits its 4-bit field (30_encoding.md R61, R63).
Whether the slot exists in the instance file is no matter of form: it is checked when the command runs (R68). -/

namespace Sys2Proof

/-- A slot index that a 4-bit field can name (R63). -/
def slotFits (i : Nat) : Bool := decide (i < 16)

/-- The command has an encoding. The byte of UPD has no reserved value (R66). -/
def Instr.wellFormed : Instr → Bool
  | .new a => slotFits a
  | .upd a _ => slotFits a
  | .rejText a => slotFits a
  | .rejOther a => slotFits a
  | .dig a => slotFits a
  | .hex a => slotFits a
  | .cpy d src => slotFits d && slotFits src
  | .rel a => slotFits a
  | .attrDsz a => slotFits a
  | .attrBsz a => slotFits a

end Sys2Proof
end

