-- ==== Sys2Proof/Decode.lean ====
section
/-! DEFINITION. The decoder, the encoder and the opcode map of 30_encoding.md. Decoding reads no state and is total
on 16-bit words (R68); a word that is no command is rejected by name (R65, R66). -/

namespace Sys2Proof

/-- Why a word is no command. Both raise ILLEGAL_COMMAND (R65, R66; log 15). -/
inductive IllegalCommand where
  /-- OP is 0x0 or 0x9 to 0xF (R65). -/
  | reservedOpcode
  /-- OP names a format, and a must-be-zero or code field holds a reserved value (R66). -/
  | reservedField
deriving DecidableEq, Repr

/-! ## The fields of a command word (R61) -/

/-- OP, `w[15:12]`. -/
def opField (w : CommandWord) : Nibble := w.extractLsb' 12 4

/-- A, `w[11:8]`: the slot, or the destination slot of CPY. -/
def slotField (w : CommandWord) : Nibble := w.extractLsb' 8 4

/-- IMM8, `w[7:0]`. -/
def immField (w : CommandWord) : Byte := w.extractLsb' 0 8

/-- SRC, `w[7:4]` of format P. -/
def srcField (w : CommandWord) : Nibble := w.extractLsb' 4 4

/-- Z4, `w[3:0]` of format P. -/
def zeroField (w : CommandWord) : Nibble := w.extractLsb' 0 4

/-! ## The decoder (R68) -/

/-- A command whose low byte must hold one fixed value (formats S and K). -/
def whenImm (w : CommandWord) (k : Byte) (i : Instr) : Except IllegalCommand Instr :=
  if immField w = k then .ok i else .error .reservedField

/-- The decoder of R68, arm by arm. -/
def decode (w : CommandWord) : Except IllegalCommand Instr :=
  match (opField w).toNat with
  | 0x1 => whenImm w 0x00 (.new (slotField w).toNat)
  | 0x2 => .ok (.upd (slotField w).toNat (immField w))
  | 0x3 =>
    if immField w = 0x01 then .ok (.rejText (slotField w).toNat)
    else whenImm w 0x02 (.rejOther (slotField w).toNat)
  | 0x4 => whenImm w 0x00 (.dig (slotField w).toNat)
  | 0x5 => whenImm w 0x00 (.hex (slotField w).toNat)
  | 0x6 =>
    if zeroField w = 0x0 then .ok (.cpy (slotField w).toNat (srcField w).toNat)
    else .error .reservedField
  | 0x7 => whenImm w 0x00 (.rel (slotField w).toNat)
  | 0x8 =>
    if immField w = 0x00 then .ok (.attrDsz (slotField w).toNat)
    else whenImm w 0x01 (.attrBsz (slotField w).toNat)
  | _ => .error .reservedOpcode

/-! ## The encoder (R62, R64) -/

/-- The word with the fields OP, A and IMM8 (formats S, B and K of R62). -/
def word (op a : Nibble) (imm : Byte) : CommandWord :=
  op.setWidth 16 <<< 12 ||| a.setWidth 16 <<< 8 ||| imm.setWidth 16

/-- The low byte of format P: SRC above the must-be-zero field (R62). -/
def sourceByte (src : Nibble) : Byte := src.setWidth 8 <<< 4

/-- The word of a command. A slot operand that does not fit its field loses its high bits, so the word of an
ill-formed command names another slot; `Instr.wellFormed` rules that out. -/
def encode : Instr → CommandWord
  | .new a => word 0x1 (BitVec.ofNat 4 a) 0x00
  | .upd a imm => word 0x2 (BitVec.ofNat 4 a) imm
  | .rejText a => word 0x3 (BitVec.ofNat 4 a) 0x01
  | .rejOther a => word 0x3 (BitVec.ofNat 4 a) 0x02
  | .dig a => word 0x4 (BitVec.ofNat 4 a) 0x00
  | .hex a => word 0x5 (BitVec.ofNat 4 a) 0x00
  | .cpy d src => word 0x6 (BitVec.ofNat 4 d) (sourceByte (BitVec.ofNat 4 src))
  | .rel a => word 0x7 (BitVec.ofNat 4 a) 0x00
  | .attrDsz a => word 0x8 (BitVec.ofNat 4 a) 0x00
  | .attrBsz a => word 0x8 (BitVec.ofNat 4 a) 0x01

/-! ## The opcode map as data (R64) -/

/-- One row of the opcode map: the words `w` with `w &&& mask = pattern` are this command. -/
structure OpcodeRow where
  mnemonic : String
  pattern  : CommandWord
  mask     : CommandWord
deriving DecidableEq, Repr

/-- The row of R64 that each command belongs to. -/
def Instr.row : Instr → OpcodeRow
  | .new _ => ⟨"NEW", 0x1000, 0xF0FF⟩
  | .upd _ _ => ⟨"UPD", 0x2000, 0xF000⟩
  | .rejText _ => ⟨"REJ.TEXT", 0x3001, 0xF0FF⟩
  | .rejOther _ => ⟨"REJ.OTHER", 0x3002, 0xF0FF⟩
  | .dig _ => ⟨"DIG", 0x4000, 0xF0FF⟩
  | .hex _ => ⟨"HEX", 0x5000, 0xF0FF⟩
  | .cpy _ _ => ⟨"CPY", 0x6000, 0xF00F⟩
  | .rel _ => ⟨"REL", 0x7000, 0xF0FF⟩
  | .attrDsz _ => ⟨"ATTR.DSZ", 0x8000, 0xF0FF⟩
  | .attrBsz _ => ⟨"ATTR.BSZ", 0x8001, 0xF0FF⟩

/-- The ten rows in the table's order (R64). -/
def opcodeTable : List OpcodeRow :=
  [Instr.row (.new 0), Instr.row (.upd 0 0), Instr.row (.rejText 0), Instr.row (.rejOther 0), Instr.row (.dig 0),
   Instr.row (.hex 0), Instr.row (.cpy 0 0), Instr.row (.rel 0), Instr.row (.attrDsz 0), Instr.row (.attrBsz 0)]

/-- A word matches a row (R64). -/
def OpcodeRow.Matches (r : OpcodeRow) (w : CommandWord) : Prop := w &&& r.mask = r.pattern

/-! ## The host's reading of one table word -/

/-- The command word whose bits are `w`, the bits above `nbits` zero (a command is one word, R60). -/
def tableWord (nbits w : Nat) : CommandWord := BitVec.ofNat 16 (w % 2 ^ nbits)

/-- The command the decoder reads from a word numbered as spec/opcode_table.json numbers it. -/
def decodeTableWord (nbits w : Nat) : Option Instr :=
  match decode (tableWord nbits w) with
  | .ok i => some i
  | .error _ => none

end Sys2Proof
end

