-- ==== Sys2Proof/Config.lean ====
section
/-! DEFINITION. The hardwired constants of the block (00_scope.md R8) and the range of its one open parameter
`NUM_INST` (R9). Input and output are not reflected and no output XOR is applied (R2, R43, R122), so those
three constants have no operation that could read them. -/

namespace Sys2Proof.Config

/-- `POLY`, the generator polynomial without its `x^8` term (R8). -/
def poly : Byte := 0x07

/-- `INIT`, the accumulator of a new engine (R8, R182). -/
def init : Byte := 0x00

/-- `DIGEST_SIZE` in bytes, as ATTR.DSZ returns it (R8, R126). -/
def digestSize : DataWord := 0x0001

/-- `BLOCK_SIZE` in bytes, as ATTR.BSZ returns it (R8, R128). -/
def blockSize : DataWord := 0x0001

/-- The smallest `NUM_INST`: a copy needs a second slot (R9). -/
def minInst : Nat := 2

/-- The largest `NUM_INST`: a slot index is a 4-bit field (R9). -/
def maxInst : Nat := 16

end Sys2Proof.Config
end

