-- ==== Sys2Proof/Machine/Parameters.lean ====
section
/-! DEFINITION. The value of the open parameter `NUM_INST` (00_scope.md R9) that `State.reset` has. No meaning reads it:
the size of a bank is the length of its instance file, so every statement about a state holds for every size. -/

namespace Sys2Proof.Machine

/-- DESIGN CHOICE (log 1): `NUM_INST` of the bank that `State.reset` describes, the size that 95_test_vectors.md
assumes. The spec leaves it open in `2 .. 16` (R9). Unsafe for a claim about `State.reset` itself. -/
def numInstAtReset : Nat := 4

end Sys2Proof.Machine
end

