-- ==== Sys2Proof/Machine/State.lean ====
section
/-! DEFINITION. The state of the block as plain data: the instance file and the two sticky STATUS fields
(10_state.md R20), and beside them the traffic of the command port and of the STATUS side band (R27, R29). -/

namespace Sys2Proof.Machine

/-- One slot of the instance file (R24, R26): `some v` is `LIVE = 1` with `ACC = v`; `none` is `LIVE = 0`, where the
accumulator holds no value. -/
abbrev Slot := Option Byte

/-- What a command returns to the host (R27). The wire kind `0b11` has no constructor: it is never produced. -/
inductive Response where
  /-- Kind OK, data 0x0000. -/
  | ok
  /-- Kind DATA with the command's result. -/
  | data (v : DataWord)
  /-- Kind ERR with an error or fault code. -/
  | err (code : Byte)
deriving DecidableEq, Repr

/-- What the host can present to the block between two commands (R172). No event names its sender: there is one agent
class, the host (R162, R170). -/
inductive PortEvent where
  /-- A word at the command port; any of the 65,536 (R172). -/
  | command (w : CommandWord)
  /-- A read of STATUS on the side band (R29). -/
  | readStatus
  /-- The reset input (R180). -/
  | reset
deriving DecidableEq, Repr

/-- The fatal faults (60_exceptions.md R154). Taking one is a next state (R155). -/
inductive FatalFault where
  /-- The word is no command. Raised by the frame (R157). -/
  | illegalCommand
  /-- A slot operand is outside the instance file. Raised by every command. -/
  | slotRange
  /-- The slot that must hold an engine is free. Raised by every command but NEW. -/
  | slotNotLive
  /-- The slot that would receive an engine holds one. Raised by NEW and CPY. -/
  | slotBusy
  /-- CPY with equal destination and source. -/
  | copySameSlot
deriving DecidableEq, Repr

/-- The two causes of the recoverable InputTypeError (R151). -/
inductive InputTypeCause where
  /-- INPUT_TYPE_TEXT. -/
  | text
  /-- INPUT_TYPE_OTHER. -/
  | other
deriving DecidableEq, Repr

/-- Reasons for which the machine stops with a fault. There are none: every error of this block is a response after
which the block goes on (R152) or refuses in band until reset (R155, R156), so all of them are next states (log 5).
Safe: nothing the spec describes is cut short. -/
inductive Fault where
deriving DecidableEq, Repr

/-- Reasons for which an instruction has no meaning. -/
inductive Refusal where
  /-- An instruction without a meaning, raised by `exec`'s refused arms. No arm raises it. Safe. -/
  | notModelled (mnemonic : String)
deriving DecidableEq, Repr

/-- The state. The first three fields are the block's (R20); the last three are the port's traffic, which the block
does not keep (log 3, log 4). No field is a mode or an agent: there is one of each (R162, R163), and nothing is delegated
or virtualised. -/
structure State where
  /-- The instance file, one entry per slot; its length is `NUM_INST` (R24). -/
  slots       : List Slot
  /-- `STATUS.FAULTED` (R28). -/
  faulted     : Bool
  /-- `STATUS.FCODE` (R28). -/
  fcode       : Nibble
  /-- What the host has still to present, the next one first (R22, R50). -/
  pending     : List PortEvent
  /-- Every response returned so far, the oldest first (R27). -/
  responses   : List Response
  /-- Every STATUS word read so far, the oldest first (R29). -/
  statusReads : List DataWord
deriving DecidableEq, Repr

/-- `NUM_INST` of the bank (R9). -/
def State.numInst (s : State) : Nat := s.slots.length

/-- `LIVE[i] = 0` for a slot of the bank. -/
abbrev State.FreeAt (s : State) (i : Nat) : Prop := s.slots[i]? = some none

/-- `LIVE[i] = 1` and `ACC[i] = v`. -/
abbrev State.LiveAt (s : State) (i : Nat) (v : Byte) : Prop := s.slots[i]? = some (some v)

/-- A bank of `n` slots right after reset (R33): every slot free, no fault recorded, nothing yet sent or returned. -/
def State.resetWith (n : Nat) : State where
  slots := List.replicate n none
  faulted := false
  fcode := 0x0
  pending := []
  responses := []
  statusReads := []

/-- The state right after reset (R33, R180), for the bank size of log 1. -/
def State.reset : State := State.resetWith numInstAtReset

end Sys2Proof.Machine
end

