-- ==== Sys2Proof/Machine/Ops.lean ====
section
/-! DEFINITION. The named operations on state: writing one slot, returning a response, raising an error or a fatal fault
(60_exceptions.md R152, R155), the refusal of the faulted state (R156) and the block reset that ends it (R180). -/

namespace Sys2Proof.Machine

/-- What a command's body answers. -/
abbrev Result := Host.Outcome State Fault Refusal

/-! ## Codes and wire values -/

/-- The code of a fatal fault (R154). -/
def FatalFault.code : FatalFault → Byte
  | .illegalCommand => 0x08
  | .slotRange => 0x09
  | .slotNotLive => 0x0A
  | .slotBusy => 0x0B
  | .copySameSlot => 0x0C

/-- The code of an InputTypeError (R151). -/
def InputTypeCause.code : InputTypeCause → Byte
  | .text => 0x01
  | .other => 0x02

/-- The `kind` bits of a response on the wire (R27, R72). -/
def Response.kindBits : Response → BitVec 2
  | .ok => 0b00
  | .data _ => 0b01
  | .err _ => 0b10

/-- The `data` bits of a response on the wire (R27, R72). -/
def Response.dataBits : Response → DataWord
  | .ok => 0x0000
  | .data v => v
  | .err code => code.setWidth 16

/-! ## The instance file -/

/-- `ACC[i] <- v; LIVE[i] <- 1`. No other slot changes (R35). -/
def writeAcc (i : Nat) (v : Byte) (s : State) : State := { s with slots := s.slots.set i (some v) }

/-- `LIVE[i] <- 0; ACC[i] <- (no value)` (R140). -/
def freeSlot (i : Nat) (s : State) : State := { s with slots := s.slots.set i none }

/-! ## Responses, errors and faults -/

/-- `respond(kind, data)`: return one response to the host (R27). -/
def respond (r : Response) (s : State) : State := { s with responses := s.responses ++ [r] }

/-- `raise InputTypeError(code)`: an ERR response and nothing else (R152). -/
def raiseInputTypeError (c : InputTypeCause) (s : State) : State := respond (.err c.code) s

/-- `raise Fault(code)`: STATUS.FAULTED and STATUS.FCODE are written, an ERR response is returned, and no slot changes
(R155, R160). FCODE has four bits and takes the code's low four (R28). -/
def raiseFault (f : FatalFault) (s : State) : State :=
  respond (.err f.code) { s with faulted := true, fcode := f.code.setWidth 4 }

/-- The faulted state answers a command word with the recorded code and changes nothing (R156). -/
def refuseFaulted (s : State) : State := respond (.err (s.fcode.setWidth 8)) s

/-- The reset input (R180), the only way out of the faulted state (R161): every slot is freed, FAULTED and FCODE are
cleared, no response is returned. -/
def resetBlock (s : State) : State :=
  { s with slots := List.replicate s.slots.length none, faulted := false, fcode := 0x0 }

end Sys2Proof.Machine
end

