-- ==== Sys2Proof/Machine/Operands.lean ====
section
/-! DEFINITION. Slot operands: the three checks of 41_construct_update.md R100 and the two common shapes of a command's
start. A command reads an accumulator only as the answer of `needLive`, so a free slot's content is never read
(10_state.md R26). -/

namespace Sys2Proof.Machine

/-- `check_slot(i)` (R100). -/
def checkSlot (i : Nat) (s : State) : Except FatalFault Unit :=
  if s.numInst ≤ i then .error .slotRange else .ok ()

/-- `need_live(i)` (R100), answering `ACC[i]`. -/
def needLive (i : Nat) (s : State) : Except FatalFault Byte :=
  match s.slots[i]? with
  | some (some v) => .ok v
  | _ => .error .slotNotLive

/-- `need_free(i)` (R100). -/
def needFree (i : Nat) (s : State) : Except FatalFault Unit :=
  match s.slots[i]? with
  | some (some _) => .error .slotBusy
  | _ => .ok ()

/-- The end of a command's checks: the first that failed ends the command and nothing after it runs (R100); if none
failed, `body` gives the next state. -/
def settle {α : Type} (checks : Except FatalFault α) (body : α → State) (s : State) : Result :=
  match checks with
  | .ok v => .next (body v)
  | .error f => .next (raiseFault f s)

/-- `check_slot(a); need_live(a)`, then `body` with `ACC[a]`. -/
def withLive (a : Nat) (body : Byte → State) (s : State) : Result :=
  settle (do checkSlot a s; needLive a s) body s

/-- `check_slot(a); need_free(a)`, then `body`. -/
def withFree (a : Nat) (body : State) (s : State) : Result :=
  settle (do checkSlot a s; needFree a s) (fun _ => body) s

end Sys2Proof.Machine
end

