-- ==== Sys2Proof/Machine/CloneRelease.lean ====
section
/-! DEFINITION. Clone and release (43_copy_release.md): CPY, REL. -/

namespace Sys2Proof.Machine

/-- `if D == S then raise Fault(COPY_SAME_SLOT)` (R135, R137). -/
def checkDistinct (d src : Nat) : Except FatalFault Unit := if d = src then .error .copySameSlot else .ok ()

/-- The checks of CPY in their order (R135), answering `ACC[S]`. -/
def cpyChecks (d src : Nat) (s : State) : Except FatalFault Byte := do
  checkSlot d s
  checkSlot src s
  checkDistinct d src
  let acc ← needLive src s
  needFree d s
  return acc

/-- `CPY sD, sS` (R135). -/
def execCpy (d src : Nat) (s : State) : Result :=
  settle (cpyChecks d src s) (fun acc => respond .ok (writeAcc d acc s)) s

/-- `REL sA` (R140). -/
def execRel (a : Nat) (s : State) : Result := withLive a (fun _ => respond .ok (freeSlot a s)) s

end Sys2Proof.Machine
end

