-- ==== Sys2Proof/Machine/ConstructUpdate.lean ====
section
/-! DEFINITION. Construction and update (41_construct_update.md): NEW, UPD, REJ.TEXT, REJ.OTHER. -/

namespace Sys2Proof.Machine

/-- `NEW sA` (R101). -/
def execNew (a : Nat) (s : State) : Result := withFree a (respond .ok (writeAcc a Config.init s)) s

/-- `UPD sA, imm8` (R103). -/
def execUpd (a : Nat) (imm : Byte) (s : State) : Result :=
  withLive a (fun acc => respond .ok (writeAcc a (reduce acc imm) s)) s

/-- `REJ.TEXT sA` (R106). -/
def execRejText (a : Nat) (s : State) : Result := withLive a (fun _ => raiseInputTypeError .text s) s

/-- `REJ.OTHER sA` (R106). -/
def execRejOther (a : Nat) (s : State) : Result := withLive a (fun _ => raiseInputTypeError .other s) s

end Sys2Proof.Machine
end

