-- ==== Sys2Proof/Machine/Queries.lean ====
section
/-! DEFINITION. The queries (42_digest.md): DIG, HEX, ATTR.DSZ, ATTR.BSZ. Each is a pure read unless it faults. -/

namespace Sys2Proof.Machine

/-- The character code of a nibble: '0' to '9', then 'a' to 'f' (R124). The codes are ASCII (93 G1; log 14). -/
def hexChar (n : Nibble) : Byte := if n.toNat < 10 then 0x30 + n.setWidth 8 else 0x57 + n.setWidth 8

/-- The data of a HEX response: the high nibble's character in `data[15:8]`, the low nibble's in `data[7:0]`
(R44, R123). -/
def hexData (v : Byte) : DataWord :=
  ((hexChar (v.extractLsb' 4 4)).setWidth 16 <<< 8) ||| (hexChar (v.extractLsb' 0 4)).setWidth 16

/-- `DIG sA` (R120). -/
def execDig (a : Nat) (s : State) : Result := withLive a (fun acc => respond (.data (acc.setWidth 16)) s) s

/-- `HEX sA` (R123). -/
def execHex (a : Nat) (s : State) : Result := withLive a (fun acc => respond (.data (hexData acc)) s) s

/-- `ATTR.DSZ sA` (R126). -/
def execAttrDsz (a : Nat) (s : State) : Result := withLive a (fun _ => respond (.data Config.digestSize) s) s

/-- `ATTR.BSZ sA` (R128). -/
def execAttrBsz (a : Nat) (s : State) : Result := withLive a (fun _ => respond (.data Config.blockSize) s) s

end Sys2Proof.Machine
end

