-- ==== Sys2Proof/Machine/Dispatch.lean ====
section
/-! DEFINITION. One arm per command: each calls the meaning of that command (60_exceptions.md R157, "run the body of c"). -/

namespace Sys2Proof.Machine

def exec (i : Instr) (s : State) : Host.Outcome State Fault Refusal :=
  match i with
  | .new a => Sys2Proof.Machine.execNew a s
  | .upd a imm => Sys2Proof.Machine.execUpd a imm s
  | .rejText a => Sys2Proof.Machine.execRejText a s
  | .rejOther a => Sys2Proof.Machine.execRejOther a s
  | .dig a => Sys2Proof.Machine.execDig a s
  | .hex a => Sys2Proof.Machine.execHex a s
  | .cpy d src => Sys2Proof.Machine.execCpy d src s
  | .rel a => Sys2Proof.Machine.execRel a s
  | .attrDsz a => Sys2Proof.Machine.execAttrDsz a s
  | .attrBsz a => Sys2Proof.Machine.execAttrBsz a s

end Sys2Proof.Machine
end

