-- ==== Sys2Proof/Machine/Flags.lean ====
section
/-! DEFINITION. The block has no flags and no condition codes (10_state.md R23), so no command computes one. What it has is
the STATUS register, which the host reads whole (R28, R29): this file puts its word together. -/

namespace Sys2Proof.Machine

/-- `STATUS.NINST_M1`, hardwired to `NUM_INST - 1` (R28). -/
def ninstM1 (s : State) : Nibble := BitVec.ofNat 4 (s.numInst - 1)

/-- The STATUS register (R28): NINST_M1 `[15:12]`, zeros `[11:8]`, FCODE `[7:4]`, zeros `[3:1]`, FAULTED `[0]`. -/
def statusWord (s : State) : DataWord :=
  (ninstM1 s).setWidth 16 <<< 12 ||| s.fcode.setWidth 16 <<< 4 ||| (BitVec.ofBool s.faulted).setWidth 16

/-- A read of STATUS on the side band (R29): the host gets the word, no command response is returned, and the block's
state does not change. -/
def readStatus (s : State) : State := { s with statusReads := s.statusReads ++ [statusWord s] }

end Sys2Proof.Machine
end

