-- ==== Sys2Proof/Machine/Port.lean ====
section
/-! DEFINITION. The port: the common frame every command word runs (60_exceptions.md R157) and what each port event does. -/

namespace Sys2Proof.Machine

/-- The frame of R157 for a command word that the port accepts: the faulted state refuses it undecoded (R156); a word
that is no command raises ILLEGAL_COMMAND; otherwise the command's body runs. -/
def acceptCommand (w : CommandWord) (s : State) : Result :=
  if s.faulted then .next (refuseFaulted s)
  else
    match decode w with
    | .error _ => .next (raiseFault .illegalCommand s)
    | .ok i => exec i s

/-- What one port event does (R29, R157, R180). -/
def acceptEvent (e : PortEvent) (s : State) : Result :=
  match e with
  | .command w => acceptCommand w s
  | .readStatus => .next (readStatus s)
  | .reset => .next (resetBlock s)

/-- Take the next event off the host's stream and run it as one atomic step (R14, R50). With nothing pending the block
holds its state (R167). -/
def acceptNext (s : State) : Result :=
  match s.pending with
  | [] => .next s
  | e :: rest => acceptEvent e { s with pending := rest }

/-- Put a command word where the next step takes its command: at the head of the host's stream. -/
def offerFirst (w : CommandWord) (s : State) : State := { s with pending := .command w :: s.pending }

/-- Append commands to the host's stream, as their words (R171). -/
def send (is : List Instr) (s : State) : State :=
  { s with pending := s.pending ++ is.map fun i => .command (encode i) }

end Sys2Proof.Machine
end

