-- ==== Sys2Proof/Machine/Step.lean ====
section
/-! DEFINITION. One step of the machine: the next event of the host's stream, whole (00_scope.md R14). -/

namespace Sys2Proof.Machine

/-- One step (R157). The block fetches nothing (R22): the command comes from the port. -/
def step (s : State) : Host.Outcome State Fault Refusal := acceptNext s

/-- `s` with one command word, given by its bits, as the next thing the port accepts (log 4). -/
def State.withFetchWord (s : State) (nbits w : Nat) : State := offerFirst (tableWord nbits w) s

end Sys2Proof.Machine
end

