-- ==== Sys2Proof/Machine/Assembler.lean ====
section
/-! DEFINITION. The assembler of 30_encoding.md: one line of text to the commands it stands for (R70), the pseudo-instructions
UPDATE and CLONE (R71), and the text of a command. Text is a list of characters. What the grammar of the spec does not
settle is in log 13. -/

namespace Sys2Proof.Machine.Assembler

/-- Text still to be read. -/
abbrev Text := List Char

/-- What a reader found and the text after it. -/
abbrev Reader (α : Type) := Text → Option (α × Text)

/-! ## Characters -/

def isBlank (c : Char) : Bool := c == ' ' || c == '\t'

/-- The printable characters of R70, `0x20 .. 0x7E`. -/
def isPrintable (c : Char) : Bool := decide (0x20 ≤ c.toNat) && decide (c.toNat ≤ 0x7E)

/-- The byte that a character stands for, its ASCII code (R70). -/
def charByte (c : Char) : Byte := BitVec.ofNat 8 c.toNat

def decDigit (c : Char) : Option Nat :=
  if '0'.toNat ≤ c.toNat ∧ c.toNat ≤ '9'.toNat then some (c.toNat - '0'.toNat) else none

/-- A hexadecimal digit, in either case of the letters. -/
def hexDigit (c : Char) : Option Nat :=
  if 'a'.toNat ≤ c.toNat ∧ c.toNat ≤ 'f'.toNat then some (c.toNat - 'a'.toNat + 10)
  else if 'A'.toNat ≤ c.toNat ∧ c.toNat ≤ 'F'.toNat then some (c.toNat - 'A'.toNat + 10)
  else decDigit c

/-- The opening brace of a byte list. -/
def openBrace : Char := Char.ofNat 0x7B

/-- The closing brace of a byte list. -/
def closeBrace : Char := Char.ofNat 0x7D

/-! ## Pieces of a line -/

def skipBlanks (t : Text) : Text := t.dropWhile isBlank

/-- Nothing is left on the line but blanks and a comment, which `;` starts (R70). -/
def atEnd (t : Text) : Bool :=
  match skipBlanks t with
  | [] => true
  | c :: _ => c == ';'

/-- The rest of the text after an expected character, blanks before it skipped. -/
def expect (c : Char) (t : Text) : Option Text :=
  match skipBlanks t with
  | d :: rest => if d == c then some rest else none
  | [] => none

/-- The value of a run of decimal digits, most significant first. -/
def decValue : List Nat → Nat := List.foldl (fun v d => 10 * v + d) 0

/-- A decimal literal without superfluous leading zeros. -/
def readDecimal : Reader Nat := fun t =>
  let digits := (t.takeWhile fun c => (decDigit c).isSome).filterMap decDigit
  let rest := t.dropWhile fun c => (decDigit c).isSome
  match digits with
  | [] => none
  | [d] => some (d, rest)
  | d :: ds => if d = 0 then none else some (decValue (d :: ds), rest)

/-- A slot, `s0` to `s15` (R70). -/
def readSlot : Reader Nat := fun t => do
  let (v, rest) ← readDecimal (← expect 's' t)
  if v < 16 then some (v, rest) else none

/-- Two hexadecimal digits. -/
def readHexPair : Reader Byte
  | h :: l :: rest => do some (BitVec.ofNat 8 (16 * (← hexDigit h) + (← hexDigit l)), rest)
  | _ => none

/-- A byte: `0xNN`, a decimal literal `0` to `255`, or a character literal (R70). -/
def readByte : Reader Byte := fun t =>
  match skipBlanks t with
  | '0' :: 'x' :: rest => readHexPair rest
  | '\'' :: c :: '\'' :: rest => if isPrintable c then some (charByte c, rest) else none
  | u => do
    let (v, rest) ← readDecimal u
    if v < 256 then some (BitVec.ofNat 8 v, rest) else none

/-- The characters of a string up to its closing quote: printable ASCII, or `\xNN` for any other byte (R71). That `\xNN` is
read for a printable byte too, such as `\x61`, is the model's choice (log 13). -/
def readString : Reader (List Byte)
  | '"' :: rest => some ([], rest)
  | '\\' :: 'x' :: h :: l :: rest => do
    let (b, _) ← readHexPair [h, l]
    let (bs, rest) ← readString rest
    some (b :: bs, rest)
  | '\\' :: _ => none
  | c :: rest => do
    let (bs, rest') ← readString rest
    if isPrintable c then some (charByte c :: bs, rest') else none
  | [] => none

/-- The bytes of a list after its first, up to the closing brace (R71). Each byte takes a character at least, so the
text's length is fuel enough. -/
def readBytesAfter : Nat → Reader (List Byte)
  | 0, _ => none
  | fuel + 1, t =>
    match expect closeBrace t with
    | some rest => some ([], rest)
    | none => do
      let (b, rest) ← readByte (← expect ',' t)
      let (bs, rest) ← readBytesAfter fuel rest
      some (b :: bs, rest)

/-- The data of UPDATE: a string or a list of bytes (R71). -/
def readData : Reader (List Byte) := fun t =>
  match expect '"' t with
  | some rest => readString rest
  | none => do
    let rest ← expect openBrace t
    match expect closeBrace rest with
    | some rest => some ([], rest)
    | none => do
      let (b, rest) ← readByte rest
      let (bs, rest) ← readBytesAfter rest.length rest
      some (b :: bs, rest)

/-! ## Lines -/


/-- A line's end after its operands. -/
def ended {α : Type} : α × Text → Option α
  | (v, rest) => if atEnd rest then some v else none

def oneSlot (mk : Nat → Instr) (t : Text) : Option (List Instr) := do
  let a ← ended (← readSlot t)
  some [mk a]

def twoSlots (mk : Nat → Nat → Instr) (t : Text) : Option (List Instr) := do
  let (d, rest) ← readSlot t
  let src ← ended (← readSlot (← expect ',' rest))
  some [mk d src]

def slotAndByte (mk : Nat → Byte → Instr) (t : Text) : Option (List Instr) := do
  let (a, rest) ← readSlot t
  let b ← ended (← readByte (← expect ',' rest))
  some [mk a b]

/-- `UPDATE sA, data`: one UPD per byte, in order (R71). -/
def slotAndData (t : Text) : Option (List Instr) := do
  let (a, rest) ← readSlot t
  let data ← ended (← readData (← expect ',' rest))
  some (data.map (Instr.upd a))

/-- A mnemonic is made of letters and dots. -/
def isMnemonicChar (c : Char) : Bool := c.isAlpha || c == '.'

/-- The commands of a line with this mnemonic, in capitals, and these operands (R70, R71). -/
def assembleOperands (mnemonic : Text) (t : Text) : Option (List Instr) :=
  if mnemonic = ['N', 'E', 'W'] then oneSlot .new t
  else if mnemonic = ['U', 'P', 'D'] then slotAndByte .upd t
  else if mnemonic = ['R', 'E', 'J', '.', 'T', 'E', 'X', 'T'] then oneSlot .rejText t
  else if mnemonic = ['R', 'E', 'J', '.', 'O', 'T', 'H', 'E', 'R'] then oneSlot .rejOther t
  else if mnemonic = ['D', 'I', 'G'] then oneSlot .dig t
  else if mnemonic = ['H', 'E', 'X'] then oneSlot .hex t
  else if mnemonic = ['C', 'P', 'Y'] then twoSlots .cpy t
  else if mnemonic = ['R', 'E', 'L'] then oneSlot .rel t
  else if mnemonic = ['A', 'T', 'T', 'R', '.', 'D', 'S', 'Z'] then oneSlot .attrDsz t
  else if mnemonic = ['A', 'T', 'T', 'R', '.', 'B', 'S', 'Z'] then oneSlot .attrBsz t
  else if mnemonic = ['C', 'L', 'O', 'N', 'E'] then twoSlots .cpy t
  else if mnemonic = ['U', 'P', 'D', 'A', 'T', 'E'] then slotAndData t
  else none

/-- The commands of one line; none for a line that is empty but for a comment (R70). -/
def assembleLine (line : Text) : Option (List Instr) :=
  if atEnd line then some []
  else
    let t := skipBlanks line
    assembleOperands ((t.takeWhile isMnemonicChar).map Char.toUpper) (t.dropWhile isMnemonicChar)

/-- The commands of a list of lines, in order. -/
def assembleLines : List Text → Option (List Instr)
  | [] => some []
  | line :: rest => do some ((← assembleLine line) ++ (← assembleLines rest))

/-! ## The text of a command -/

/-- The text of a slot, `s0` to `s15` (R70). -/
def slotText (a : Nat) : Text := 's' :: Nat.toDigits 10 a

/-- The text of a byte, `0xNN`. -/
def byteText (b : Byte) : Text := ['0', 'x', (b.toNat / 16).digitChar, (b.toNat % 16).digitChar]

/-- The text of a byte list, in braces (R71). -/
def bytesText (data : List Byte) : Text :=
  openBrace :: ([',', ' '].intercalate (data.map byteText) ++ [closeBrace])

/-- The line that R70 gives a command. -/
def lineOf : Instr → Text
  | .new a => ['N', 'E', 'W', ' '] ++ slotText a
  | .upd a b => ['U', 'P', 'D', ' '] ++ slotText a ++ [',', ' '] ++ byteText b
  | .rejText a => ['R', 'E', 'J', '.', 'T', 'E', 'X', 'T', ' '] ++ slotText a
  | .rejOther a => ['R', 'E', 'J', '.', 'O', 'T', 'H', 'E', 'R', ' '] ++ slotText a
  | .dig a => ['D', 'I', 'G', ' '] ++ slotText a
  | .hex a => ['H', 'E', 'X', ' '] ++ slotText a
  | .cpy d src => ['C', 'P', 'Y', ' '] ++ slotText d ++ [',', ' '] ++ slotText src
  | .rel a => ['R', 'E', 'L', ' '] ++ slotText a
  | .attrDsz a => ['A', 'T', 'T', 'R', '.', 'D', 'S', 'Z', ' '] ++ slotText a
  | .attrBsz a => ['A', 'T', 'T', 'R', '.', 'B', 'S', 'Z', ' '] ++ slotText a

end Sys2Proof.Machine.Assembler
end

