-- ==== Sys2Proof/Machine/HostAdapter.lean ====
section
/-! DEFINITION. The host mapping of 60_exceptions.md R171: each operation of the source's engine as the commands the host sends
for it, and the source's own account of what the operation returns and does. -/

namespace Sys2Proof.Machine

/-- The argument of an `update` call, as the host has classified it (R153, R171). The classification is the host's and is
left open, so the model takes the verdict (log 12). -/
inductive UpdateArgument where
  /-- A byte sequence; the empty one is legal (R104, R107). -/
  | bytes (data : List Byte)
  /-- Text that was never encoded to bytes. -/
  | text
  /-- Any other value, a missing one included. -/
  | other
deriving DecidableEq, Repr

/-- An operation of the source (R171); the slots are the ones the host has chosen for the engines. -/
inductive SourceCall where
  | new (k : Nat)
  | update (k : Nat) (x : UpdateArgument)
  | digest (k : Nat)
  | hexdigest (k : Nat)
  | copy (j k : Nat)
  | digestSize (k : Nat)
  | blockSize (k : Nat)
  | drop (k : Nat)
deriving DecidableEq, Repr

/-- The commands of `update(data)`: one UPD per byte, in order, none for the empty sequence (R104). -/
def updateCommands (k : Nat) (data : List Byte) : List Instr := data.map (Instr.upd k)

/-- "the host sends" (R171). The table calls the REL of a dropped engine optional; that `drop` always sends it is the
model's choice, and an owner who drops an engine and sends no REL is a session without that call (log 20). -/
def SourceCall.commands : SourceCall → List Instr
  | .new k => [.new k]
  | .update k (.bytes data) => updateCommands k data
  | .update k .text => [.rejText k]
  | .update k .other => [.rejOther k]
  | .digest k => [.dig k]
  | .hexdigest k => [.hex k]
  | .copy j k => [.cpy j k]
  | .digestSize k => [.attrDsz k]
  | .blockSize k => [.attrBsz k]
  | .drop k => [.rel k]

/-- The engines of the source, by slot: the bytes an engine has consumed, or `none` where no engine is (R25). -/
abbrev Histories := List (Option (List Byte))

/-- The host duty of R171 for an operation: a free slot for a new engine, an existing engine for anything else. -/
def SourceCall.Allowed (h : Histories) : SourceCall → Prop
  | .new k => h[k]? = some none
  | .copy j k => h[j]? = some none ∧ ∃ bytes, h[k]? = some (some bytes)
  | .update k _ | .digest k | .hexdigest k | .digestSize k | .blockSize k | .drop k =>
    ∃ bytes, h[k]? = some (some bytes)

/-- The bytes that the engine in slot `k` has consumed. -/
def consumed (h : Histories) (k : Nat) : List Byte := (h[k]?.join).getD []

/-- "what the host gets back" (R171): the source's results as responses. -/
def SourceCall.results (h : Histories) : SourceCall → List Response
  | .new _ => [.ok]
  | .update _ (.bytes data) => data.map fun _ => .ok
  | .update _ .text => [.err 0x01]
  | .update _ .other => [.err 0x02]
  | .digest k => [.data ((crc (consumed h k)).setWidth 16)]
  | .hexdigest k => [.data (hexData (crc (consumed h k)))]
  | .copy _ _ => [.ok]
  | .digestSize _ => [.data 0x0001]
  | .blockSize _ => [.data 0x0001]
  | .drop _ => [.ok]

/-- What the operation does to the engines: a new engine has consumed nothing, an update appends, a clone takes the
history of its source, a query or a failed update changes nothing (R104, R108, R121, R136). -/
def SourceCall.after (h : Histories) : SourceCall → Histories
  | .new k => h.set k (some [])
  | .update k (.bytes data) => h.set k (some (consumed h k ++ data))
  | .copy j k => h.set j (some (consumed h k))
  | .drop k => h.set k none
  | .update _ .text | .update _ .other | .digest _ | .hexdigest _ | .digestSize _ | .blockSize _ => h

end Sys2Proof.Machine
end

