-- ==== Sys2Proof/Safety.lean ====
section
/-! DEFINITION. The terms that claims use: the invariant of the block, what a faulted run is (60_exceptions.md R173), the
histories that accumulators stand for (10_state.md R25), and a run of several steps. -/

namespace Sys2Proof.Machine

/-- The legal values of `STATUS.FCODE` (R28). -/
def legalFcodes : List Nibble := [0x0, 0x8, 0x9, 0xA, 0xB, 0xC]

/-- The invariant of the block: the bank has a legal size (R9), FCODE a legal value, and `FAULTED = 0` exactly when
`FCODE = 0x0` (R28). -/
structure State.Inv (s : State) : Prop where
  bank : Config.minInst ≤ s.numInst ∧ s.numInst ≤ Config.maxInst
  code : s.fcode ∈ legalFcodes
  sticky : s.faulted = false ↔ s.fcode = 0x0

/-- A run that ends here is a faulted run: a claim reads it as a failure (R173). -/
abbrev State.FaultedRun (s : State) : Prop := s.faulted = true

/-- Every live slot's accumulator is the CRC of the bytes its engine has consumed, and the free slots are the slots
without an engine (R25). -/
def Tracks (h : Histories) (s : State) : Prop := s.slots = h.map (Option.map crc)

/-- What a command that does not fault does to the histories (R25). -/
def histAfter (h : Histories) : Instr → Histories
  | .new a => h.set a (some [])
  | .upd a imm => h.set a (some (consumed h a ++ [imm]))
  | .cpy d src => h.set d (some (consumed h src))
  | .rel a => h.set a none
  | .rejText _ | .rejOther _ | .dig _ | .hex _ | .attrDsz _ | .attrBsz _ => h

/-- `n` steps; no step of this machine stops, so `none` never comes out (see the statements). -/
def runSteps : Nat → State → Option State
  | 0, s => some s
  | n + 1, s =>
    match step s with
    | .next t => runSteps n t
    | .fault _ => none
    | .refused _ => none

/-- Two states that a block cannot tell apart: the same instance file, STATUS fields and pending stream. What was
returned to the host before is left out. -/
structure SameBlock (s t : State) : Prop where
  slots : s.slots = t.slots
  faulted : s.faulted = t.faulted
  fcode : s.fcode = t.fcode
  pending : s.pending = t.pending

/-! ## Sessions of source operations (R171) -/

/-- The host keeps to its duties through a list of operations, starting from these engines. -/
def SessionAllowed : Histories → List SourceCall → Prop
  | _, [] => True
  | h, c :: cs => c.Allowed h ∧ SessionAllowed (c.after h) cs

/-- All commands of a list of operations, in order. -/
def sessionCommands (cs : List SourceCall) : List Instr := cs.flatMap SourceCall.commands

/-- All results of a list of operations, in order. -/
def sessionResults : Histories → List SourceCall → List Response
  | _, [] => []
  | h, c :: cs => c.results h ++ sessionResults (c.after h) cs

/-- The engines after a list of operations. -/
def sessionAfter : Histories → List SourceCall → Histories := List.foldl SourceCall.after

/-! ## What a command may answer (R158) -/

/-- The codes of the errors that a command may raise (R158). -/
def possibleErrors : Instr → List Byte
  | .new _ => [0x09, 0x0B]
  | .upd _ _ | .dig _ | .hex _ | .rel _ | .attrDsz _ | .attrBsz _ => [0x09, 0x0A]
  | .rejText _ => [0x09, 0x0A, 0x01]
  | .rejOther _ => [0x09, 0x0A, 0x02]
  | .cpy _ _ => [0x09, 0x0C, 0x0A, 0x0B]

/-- A response that R158 allows a command. -/
def MayAnswer (i : Instr) : Response → Prop
  | .err c => c ∈ possibleErrors i
  | .ok => match i with
    | .new _ | .upd _ _ | .cpy _ _ | .rel _ => True
    | .rejText _ | .rejOther _ | .dig _ | .hex _ | .attrDsz _ | .attrBsz _ => False
  | .data v => match i with
    | .dig _ | .hex _ => True
    | .attrDsz _ | .attrBsz _ => v = 0x0001
    | .new _ | .upd _ _ | .rejText _ | .rejOther _ | .cpy _ _ | .rel _ => False

/-! ## What a command names and writes (R157, R35) -/

/-- The slot operands of a command, in the order in which their range is checked (R157). -/
def slotOperands : Instr → List Nat
  | .new a | .upd a _ | .rejText a | .rejOther a | .dig a | .hex a | .rel a | .attrDsz a | .attrBsz a => [a]
  | .cpy d src => [d, src]

/-- The slot that must hold an engine: the slot operand, or the source of CPY; NEW has none (R154, R157). -/
def engineSlot : Instr → Option Nat
  | .new _ => none
  | .upd a _ | .rejText a | .rejOther a | .dig a | .hex a | .rel a | .attrDsz a | .attrBsz a => some a
  | .cpy _ src => some src

/-- The slot that receives a new engine and must be free: NEW's slot and CPY's destination (R154). -/
def receivingSlot : Instr → Option Nat
  | .new a => some a
  | .cpy d _ => some d
  | .upd _ _ | .rejText _ | .rejOther _ | .dig _ | .hex _ | .rel _ | .attrDsz _ | .attrBsz _ => none

/-- The one slot that a command may write (R35). -/
def writtenSlot : Instr → Option Nat
  | .new a | .upd a _ | .rel a => some a
  | .cpy d _ => some d
  | .rejText _ | .rejOther _ | .dig _ | .hex _ | .attrDsz _ | .attrBsz _ => none

/-- The words that the mask selects are exactly the words of one command, with the operands that `mk` reads (R64). -/
def Selects (pattern mask : CommandWord) (mk : CommandWord → Instr) : Prop :=
  ∀ w : CommandWord, w &&& mask = pattern ↔ decode w = .ok (mk w)

end Sys2Proof.Machine
end

