-- ==== Sys2Proof/Certificates/Slice0/Obligations.lean ====
section
/-! DEFINITION. The statements about the block. Each says which rule of spec/ it formalises, or that it rests on an inference or
on a choice of the model. Statements about a state hold for every bank size, not only the one of `State.reset`. -/

open Sys2Proof Sys2Proof.Machine

/-! ## The port and the common frame (60_exceptions.md) -/

/-- The command at the head of the host's stream runs: the step is the command's body on the state without it (R157, the
frame's third case). -/
def Obligations.StepRunsDecodedCommand : Prop :=
  ∀ (s : State) (w : CommandWord) (rest : List PortEvent) (i : Instr),
    s.pending = .command w :: rest → s.faulted = false → decode w = .ok i →
    step s = exec i { s with pending := rest }

/-- R157: the frame takes the first outcome that applies, and a command's checks report the first that fails, in the order
SLOT_RANGE, COPY_SAME_SLOT, SLOT_NOT_LIVE, SLOT_BUSY, InputTypeError; with the rule's two examples. -/
def Obligations.CommandFrameTakesFirstOutcome : Prop :=
  (∀ (s : State) (w : CommandWord) (rest : List PortEvent), s.pending = .command w :: rest →
    (s.faulted = true →
      step s = .next { s with pending := rest, responses := s.responses ++ [.err (s.fcode.setWidth 8)] }) ∧
    (s.faulted = false → ∀ e, decode w = .error e →
      step s = .next { s with
        pending := rest, faulted := true, fcode := 0x8, responses := s.responses ++ [.err 0x08] }) ∧
    (s.faulted = false → ∀ i, decode w = .ok i → step s = exec i { s with pending := rest })) ∧
  (∀ (i : Instr) (s : State),
    ((∃ a ∈ slotOperands i, s.numInst ≤ a) → exec i s = .next (raiseFault .slotRange s)) ∧
    ((∀ a ∈ slotOperands i, a < s.numInst) →
      (∀ a, i = .cpy a a → exec i s = .next (raiseFault .copySameSlot s)) ∧
      ((∀ a, i ≠ .cpy a a) →
        (∀ a, engineSlot i = some a → s.FreeAt a → exec i s = .next (raiseFault .slotNotLive s)) ∧
        ((∀ a, engineSlot i = some a → ∃ v, s.LiveAt a v) →
          (∀ a v, receivingSlot i = some a → s.LiveAt a v → exec i s = .next (raiseFault .slotBusy s)) ∧
          (∀ a, i = .rejText a → exec i s = .next { s with responses := s.responses ++ [.err 0x01] }) ∧
          (∀ a, i = .rejOther a → exec i s = .next { s with responses := s.responses ++ [.err 0x02] }))))) ∧
  (∀ s : State, s.FreeAt 3 → exec (.cpy 3 3) s = .next (raiseFault .copySameSlot s)) ∧
  (∀ s : State, s.numInst = 4 → exec (.rejText 5) s = .next (raiseFault .slotRange s))

/-- R155: raising a fatal fault sets FAULTED, puts the code in FCODE without loss, returns ERR with the zero-extended code,
and does nothing else; and a command whose step sets FAULTED has done that alone to the state the port gave it, so it has no
other effect. -/
def Obligations.RaiseFaultWritesStatusOnly : Prop :=
  (∀ (f : FatalFault) (s : State),
    (raiseFault f s = { s with
      faulted := true, fcode := f.code.setWidth 4, responses := s.responses ++ [.err f.code] }) ∧
    (raiseFault f s).fcode.toNat = f.code.toNat ∧
    (Response.err f.code).dataBits = f.code.setWidth 16 ∧
    f.code ∈ [0x08, 0x09, 0x0A, 0x0B, 0x0C]) ∧
  ∀ (s t : State) (w : CommandWord) (rest : List PortEvent), s.pending = .command w :: rest → s.faulted = false →
    step s = .next t → t.faulted = true →
    ∃ f, t = raiseFault f { s with pending := rest } ∧ t.slots = s.slots

/-- The codes of R151 and R154, and R154's "never produced": from a state that meets the invariant, a step returns at most
one response, and an ERR in it carries a listed code. -/
def Obligations.OnlyListedErrorCodesAreReturned : Prop :=
  (FatalFault.illegalCommand.code = 0x08 ∧ FatalFault.slotRange.code = 0x09 ∧ FatalFault.slotNotLive.code = 0x0A ∧
    FatalFault.slotBusy.code = 0x0B ∧ FatalFault.copySameSlot.code = 0x0C ∧
    InputTypeCause.text.code = 0x01 ∧ InputTypeCause.other.code = 0x02) ∧
  ∀ s t : State, s.Inv → step s = .next t →
    t.responses = s.responses ∨
    ∃ r, t.responses = s.responses ++ [r] ∧
      ∀ c, r = .err c → c ∈ [0x01, 0x02, 0x08, 0x09, 0x0A, 0x0B, 0x0C]

/-- R156: a faulted block answers every word with ERR and the recorded code and changes nothing, only reset leaves the
faulted state, and STATUS stays readable. -/
def Obligations.FaultedStateRefusesCommands : Prop :=
  (∀ (s : State) (w : CommandWord) (rest : List PortEvent), s.pending = .command w :: rest → s.faulted = true →
    step s = .next { s with pending := rest, responses := s.responses ++ [.err (s.fcode.setWidth 8)] } ∧
    (Response.err (s.fcode.setWidth 8)).dataBits = s.fcode.setWidth 16) ∧
  (∀ s t : State, s.faulted = true → step s = .next t → t.faulted = false →
    ∃ rest, s.pending = .reset :: rest) ∧
  (∀ (s : State) (rest : List PortEvent), s.pending = .readStatus :: rest → s.faulted = true →
    step s = .next { s with pending := rest, statusReads := s.statusReads ++ [statusWord s] })

/-- R150: a command that the port accepts ends in success, with the body's own writes; in a recoverable error, with no
write; or in a fatal fault, which writes STATUS only and after which every command up to the next reset is refused. -/
def Obligations.CommandEndsInOneOfThreeWays : Prop :=
  ∀ (s : State) (w : CommandWord) (rest : List PortEvent), s.pending = .command w :: rest → s.faulted = false →
    ∃ t r, step s = .next t ∧ t.responses = s.responses ++ [r] ∧
      (((r = .ok ∨ ∃ v, r = .data v) ∧ t.faulted = false ∧ t.fcode = s.fcode ∧
          ∃ i, decode w = .ok i ∧ exec i { s with pending := rest } = .next t) ∨
        ((r = .err 0x01 ∨ r = .err 0x02) ∧ t = { s with pending := rest, responses := s.responses ++ [r] }) ∨
        (∃ c ∈ [(0x08 : Byte), 0x09, 0x0A, 0x0B, 0x0C], r = .err c ∧
          t = { s with
            pending := rest, faulted := true, fcode := c.setWidth 4, responses := s.responses ++ [r] } ∧
          ∀ (later : List CommandWord) (rest' : List PortEvent), rest = later.map .command ++ rest' →
            runSteps later.length t = some { t with
              pending := rest', responses := t.responses ++ List.replicate later.length (.err c) }))

/-- R152: an InputTypeError is one ERR response with code 0x01 or 0x02 and writes no state; the engine stays live and a
query after it answers as before. -/
def Obligations.InputTypeErrorWritesNoState : Prop :=
  (∀ (c : InputTypeCause) (s : State),
    raiseInputTypeError c s = { s with responses := s.responses ++ [.err c.code] } ∧
    c.code ∈ [0x01, 0x02] ∧ (Response.err c.code).dataBits = c.code.setWidth 16) ∧
  ∀ (s : State) (a : Nat) (acc : Byte), s.LiveAt a acc →
    ∃ t u, exec (.rejText a) s = .next t ∧ exec (.rejOther a) t = .next u ∧ u.LiveAt a acc ∧
      u = { s with responses := s.responses ++ [.err 0x01, .err 0x02] } ∧
      exec (.dig a) u = .next { u with responses := u.responses ++ [.data (acc.setWidth 16)] }

/-- R158 (an inference the spec marks as its own: "derived: from" the command rules): every command completes with exactly
one response, and it is one that the command's row of the table allows. -/
def Obligations.CommandsAnswerAsTheirRowAllows : Prop :=
  ∀ (i : Instr) (s : State), ∃ t r, exec i s = .next t ∧ t.responses = s.responses ++ [r] ∧ MayAnswer i r

/-- R30: FAULTED and FCODE change in two events only: reset, which clears them, and a fatal fault, which sets them. An
InputTypeError never writes them. -/
def Obligations.StickyStatusHasTwoWriters : Prop :=
  (∀ s t : State, step s = .next t → (t.faulted ≠ s.faulted ∨ t.fcode ≠ s.fcode) →
    (∃ rest, s.pending = .reset :: rest ∧ t.faulted = false ∧ t.fcode = 0x0) ∨
    (∃ w rest f, s.pending = .command w :: rest ∧ t = raiseFault f { s with pending := rest })) ∧
  (∀ (c : InputTypeCause) (s : State),
    (raiseInputTypeError c s).faulted = s.faulted ∧ (raiseInputTypeError c s).fcode = s.fcode)

/-- The frame of a command: one response is appended, and the host's stream, what STATUS reads returned and the size of the
bank stay as they are (R27; the stream and the records are the model's own fields, log 3 and log 4). -/
def Obligations.CommandTouchesPortByOneResponse : Prop :=
  ∀ (i : Instr) (s t : State), exec i s = .next t →
    (∃ r, t.responses = s.responses ++ [r]) ∧ t.pending = s.pending ∧ t.statusReads = s.statusReads ∧
    t.numInst = s.numInst

/-- R72: the wire values of a response; kind `0b11` is never produced. -/
def Obligations.ResponseWireEncoding : Prop :=
  Response.ok.kindBits = 0b00 ∧ Response.ok.dataBits = 0x0000 ∧
  (∀ v, (Response.data v).kindBits = 0b01 ∧ (Response.data v).dataBits = v) ∧
  (∀ c, (Response.err c).kindBits = 0b10 ∧ (Response.err c).dataBits = c.setWidth 16) ∧
  ∀ r : Response, r.kindBits ≠ 0b11

/-- Between commands the block holds its state (R167): a step with nothing pending changes nothing. That an empty stream is
a step at all is the model's choice (log 4). -/
def Obligations.IdleBlockHoldsState : Prop :=
  ∀ s : State, s.pending = [] → step s = .next s

/-- The block goes on after every event: no state and no word make a step stop (R172, "It never gets an unspecified
result"; log 5). -/
def Obligations.EveryStepAnswersNext : Prop :=
  (∀ s : State, ∃ t, step s = .next t) ∧ ∀ (n : Nat) (s : State), ∃ t, runSteps n s = some t

/-! ## STATUS, reset and the invariant -/

/-- R29: a STATUS read at any time, faulted or not, returns the word on the side band, returns no command response and
changes no state. -/
def Obligations.StatusReadChangesNothing : Prop :=
  ∀ (s : State) (rest : List PortEvent), s.pending = .readStatus :: rest →
    step s = .next { s with pending := rest, statusReads := s.statusReads ++ [statusWord s] }

/-- The fields of the STATUS word of a bank that meets the invariant (R28). -/
def Obligations.StatusWordFields : Prop :=
  ∀ s : State, s.Inv →
    (statusWord s).getLsbD 0 = s.faulted ∧
    (statusWord s).extractLsb' 1 3 = 0 ∧
    (statusWord s).extractLsb' 4 4 = s.fcode ∧
    (statusWord s).extractLsb' 8 4 = 0 ∧
    ((statusWord s).extractLsb' 12 4).toNat = s.numInst - 1 ∧
    (statusWord s).extractLsb' 4 4 ∈ [0x0, 0x8, 0x9, 0xA, 0xB, 0xC] ∧
    ((statusWord s).getLsbD 0 = false ↔ (statusWord s).extractLsb' 4 4 = 0)

/-- R180: reset frees every slot, clears FAULTED and FCODE and returns no response, and it is the only event that clears a
fatal fault. That the host's stream and records survive it is the model's choice (log 6). -/
def Obligations.ResetFreesBankAndClearsFault : Prop :=
  (∀ (s : State) (rest : List PortEvent), s.pending = .reset :: rest →
    step s = .next {
      slots := List.replicate s.numInst none, faulted := false, fcode := 0x0,
      pending := rest, responses := s.responses, statusReads := s.statusReads }) ∧
  (∀ s t : State, s.faulted = true → step s = .next t → t.faulted = false → ∃ rest, s.pending = .reset :: rest)

/-- R33: the state after reset, for every bank size. -/
def Obligations.ResetStateHoldsResetValues : Prop :=
  ∀ n, 2 ≤ n → n ≤ 16 →
    (∀ i, i < n → (State.resetWith n).FreeAt i) ∧ (State.resetWith n).numInst = n ∧
    (State.resetWith n).faulted = false ∧ (State.resetWith n).fcode = 0x0 ∧
    (statusWord (State.resetWith n)).extractLsb' 1 3 = 0 ∧
    (statusWord (State.resetWith n)).extractLsb' 8 4 = 0 ∧
    ((statusWord (State.resetWith n)).extractLsb' 12 4).toNat = n - 1

/-- R181 (an inference the spec marks as its own): after a reset STATUS reads `(NUM_INST - 1) << 12` and all slots are free,
whatever the state before it. -/
def Obligations.StatusAfterReset : Prop :=
  (∀ (s : State) (rest : List PortEvent), s.Inv → s.pending = .reset :: rest →
    ∃ t, step s = .next t ∧ statusWord t = BitVec.ofNat 16 ((s.numInst - 1) <<< 12) ∧
      ∀ i, i < s.numInst → t.FreeAt i) ∧
  statusWord (State.resetWith 4) = 0x3000

/-- The state after reset meets the invariant, for every legal bank size, and so does `State.reset` (its size is log 1). -/
def Obligations.ResetStateMeetsInvariant : Prop :=
  (∀ n, 2 ≤ n → n ≤ 16 → (State.resetWith n).Inv) ∧ State.reset.Inv

/-- Every step keeps the invariant: the bank size stays legal, FCODE stays a legal value, and FAULTED = 0 exactly when
FCODE = 0x0 (R9, R28). -/
def Obligations.StepKeepsInvariant : Prop :=
  ∀ s t : State, s.Inv → step s = .next t → t.Inv ∧ t.numInst = s.numInst

/-! ## Encoding (30_encoding.md) -/

/-- The decoder agrees with the opcode map of R64, row by row: a word matches a row exactly when it decodes to a command of
that row, and no word matches two rows. -/
def Obligations.DecodeMatchesOpcodeMap : Prop :=
  (∀ r ∈ opcodeTable, ∀ w, r.Matches w ↔ ∃ i, decode w = .ok i ∧ i.row = r) ∧
  (∀ r ∈ opcodeTable, ∀ r' ∈ opcodeTable, ∀ w, r.Matches w → r'.Matches w → r = r')

/-- R65: a word whose OP is 0x0 or 0x9 to 0xF is no command and raises ILLEGAL_COMMAND, whatever its other bits. -/
def Obligations.ReservedOpcodesAreIllegal : Prop :=
  ∀ (s : State) (w : CommandWord) (rest : List PortEvent), s.pending = .command w :: rest → s.faulted = false →
    (w.extractLsb' 12 4 = 0x0 ∨ 0x9 ≤ w.extractLsb' 12 4 ∨ w = 0x0000 ∨ w = 0xFFFF) →
    decode w = .error .reservedOpcode ∧ step s = .next (raiseFault .illegalCommand { s with pending := rest })

/-- R66: a reserved field value is not ignored, it raises ILLEGAL_COMMAND; format B has no reserved value. -/
def Obligations.ReservedFieldValuesAreIllegal : Prop :=
  (∀ (s : State) (w : CommandWord) (rest : List PortEvent), s.pending = .command w :: rest → s.faulted = false →
    ((w.extractLsb' 12 4 ∈ [(0x1 : Nibble), 0x4, 0x5, 0x7] ∧ w.extractLsb' 0 8 ≠ 0x00) ∨
      (w.extractLsb' 12 4 = 0x6 ∧ w.extractLsb' 0 4 ≠ 0x0) ∨
      (w.extractLsb' 12 4 = 0x3 ∧ w.extractLsb' 0 8 ∉ [(0x01 : Byte), 0x02]) ∨
      (w.extractLsb' 12 4 = 0x8 ∧ w.extractLsb' 0 8 ∉ [(0x00 : Byte), 0x01])) →
    decode w = .error .reservedField ∧ step s = .next (raiseFault .illegalCommand { s with pending := rest })) ∧
  ∀ w : CommandWord, w.extractLsb' 12 4 = 0x2 → ∃ i, decode w = .ok i

/-- Encoding and then decoding gives the command back, every operand at every value its field admits (R62, R68). -/
def Obligations.DecodeOfEncode : Prop :=
  ∀ i : Instr, i.wellFormed = true → decode (encode i) = .ok i

/-- A word that decodes has one meaning: it is the encoding of the command it decodes to, and that command is well formed
(R64, R67). -/
def Obligations.EncodeOfDecode : Prop :=
  ∀ (w : CommandWord) (i : Instr), decode w = .ok i → encode i = w ∧ i.wellFormed = true

/-- Words of 95_test_vectors.md (V1 to V10, V17, V18, V20, V22 to V24) and of the examples of the command rules, and what they decode to. -/
def Obligations.SpecWordsDecode : Prop :=
  decode 0x1000 = .ok (.new 0) ∧ decode 0x2061 = .ok (.upd 0 0x61) ∧ decode 0x2000 = .ok (.upd 0 0x00) ∧
  decode 0x20FF = .ok (.upd 0 0xFF) ∧ decode 0x3001 = .ok (.rejText 0) ∧ decode 0x3002 = .ok (.rejOther 0) ∧
  decode 0x4100 = .ok (.dig 1) ∧ decode 0x5000 = .ok (.hex 0) ∧ decode 0x6F00 = .ok (.cpy 15 0) ∧
  decode 0x6100 = .ok (.cpy 1 0) ∧ decode 0x7100 = .ok (.rel 1) ∧ decode 0x8100 = .ok (.attrDsz 1) ∧
  decode 0x8F01 = .ok (.attrBsz 15)

/-- The assembler gives each line of R70's table its word. (The text forms that the grammar leaves open are log 13.) -/
def Obligations.AssemblerLinesGiveTheirWords : Prop :=
  ∀ (a d src : Nat) (imm : Byte), a < 16 → d < 16 → src < 16 →
    let wordsOf := fun i => (Assembler.assembleLine (Assembler.lineOf i)).map (List.map encode)
    wordsOf (.new a) = some [BitVec.ofNat 16 (0x1000 + 0x100 * a)] ∧
    wordsOf (.upd a imm) = some [BitVec.ofNat 16 (0x2000 + 0x100 * a + imm.toNat)] ∧
    wordsOf (.rejText a) = some [BitVec.ofNat 16 (0x3001 + 0x100 * a)] ∧
    wordsOf (.rejOther a) = some [BitVec.ofNat 16 (0x3002 + 0x100 * a)] ∧
    wordsOf (.dig a) = some [BitVec.ofNat 16 (0x4000 + 0x100 * a)] ∧
    wordsOf (.hex a) = some [BitVec.ofNat 16 (0x5000 + 0x100 * a)] ∧
    wordsOf (.cpy d src) = some [BitVec.ofNat 16 (0x6000 + 0x100 * d + 0x10 * src)] ∧
    wordsOf (.rel a) = some [BitVec.ofNat 16 (0x7000 + 0x100 * a)] ∧
    wordsOf (.attrDsz a) = some [BitVec.ofNat 16 (0x8000 + 0x100 * a)] ∧
    wordsOf (.attrBsz a) = some [BitVec.ofNat 16 (0x8001 + 0x100 * a)]

/-- The pseudo-instructions of R71: UPDATE with a string or a byte list expands to one UPD per byte, in order, and CLONE is
CPY. (A string here holds no quote and no backslash, which log 13 treats.) -/
def Obligations.PseudoInstructionsExpand : Prop :=
  (∀ (a : Nat) (text : List Char), a < 16 →
    (∀ c ∈ text, Assembler.isPrintable c = true ∧ c ≠ '"' ∧ c ≠ '\\') →
    Assembler.assembleLine
        (['U', 'P', 'D', 'A', 'T', 'E', ' '] ++ Assembler.slotText a ++ [',', ' ', '"'] ++ text ++ ['"'])
      = some (text.map fun c => .upd a (Assembler.charByte c))) ∧
  (∀ (a : Nat) (data : List Byte), a < 16 →
    Assembler.assembleLine
        (['U', 'P', 'D', 'A', 'T', 'E', ' '] ++ Assembler.slotText a ++ [',', ' '] ++ Assembler.bytesText data)
      = some (data.map (.upd a))) ∧
  (∀ d src : Nat, d < 16 → src < 16 →
    Assembler.assembleLine
        (['C', 'L', 'O', 'N', 'E', ' '] ++ Assembler.slotText d ++ [',', ' '] ++ Assembler.slotText src)
      = some [.cpy d src])

/-! ## The reducer (40_reducer.md) -/

/-- One iteration of the loop of R80, bit by bit (R81, an inference the spec marks as its own). -/
def Obligations.ShiftStepBits : Prop :=
  ∀ a : Byte,
    (∀ k, 3 ≤ k → k ≤ 7 → (shiftStep a).getLsbD k = a.getLsbD (k - 1)) ∧
    (shiftStep a).getLsbD 2 = (a.getLsbD 1 ^^ a.getLsbD 7) ∧
    (shiftStep a).getLsbD 1 = (a.getLsbD 0 ^^ a.getLsbD 7) ∧
    (shiftStep a).getLsbD 0 = a.getLsbD 7

/-- The two structures of the reducer agree on all 65,536 pairs (R82 and R83): the table the spec prints, read at
`acc ^ b`, gives what the loop gives. -/
def Obligations.TableReducerAgreesWithLoop : Prop :=
  crcTable.length = 256 ∧ ∀ acc b : Byte, tableReduce acc b = some (reduce acc b)

/-- Linearity over GF(2) (R86, an inference the spec marks as its own). -/
def Obligations.ReducerIsLinear : Prop :=
  (∀ x y : Byte, reduce 0x00 (x ^^^ y) = reduce 0x00 x ^^^ reduce 0x00 y) ∧ reduce 0x00 0x00 = 0x00 ∧
  ∀ acc b : Byte, reduce acc b = reduce 0x00 acc ^^^ reduce 0x00 b

/-- Basis values and bijectivity (R87, an inference the spec marks as its own): no two bytes, and no two accumulators, give
the same result. -/
def Obligations.ReducerIsBijective : Prop :=
  ([0x01, 0x02, 0x04, 0x08, 0x10, 0x20, 0x40, 0x80].map (reduce 0x00)
    = [0x07, 0x0E, 0x1C, 0x38, 0x70, 0xE0, 0xC7, 0x89]) ∧
  (∀ acc : Byte, Function.Bijective (reduce acc)) ∧
  (∀ b : Byte, Function.Bijective fun acc => reduce acc b)

/-- The CRC of a byte sequence is the left fold of the reducer from INIT (R84). -/
def Obligations.CrcIsLeftFold : Prop :=
  crc [] = 0x00 ∧ (∀ (bytes : List Byte) (b : Byte), crc (bytes ++ [b]) = reduce (crc bytes) b) ∧
  (∀ acc : Byte, fold acc [] = acc) ∧
  (∀ (acc b : Byte) (bytes : List Byte), fold acc (bytes ++ [b]) = reduce (fold acc bytes) b) ∧
  ∀ bytes : List Byte, crc bytes = fold 0x00 bytes

/-- The chunking law (R85, an inference the spec marks as its own, and the source's invariant). -/
def Obligations.ChunkingLaw : Prop :=
  ∀ (acc : Byte) (front back : List Byte), fold (fold acc front) back = fold acc (front ++ back)

/-- The residue law and leading zeros (R88 and R89, inferences the spec marks as its own): appending a sequence's own CRC
brings the accumulator to zero, and zero bytes fed to a new engine cannot be detected. -/
def Obligations.ResidueAndLeadingZeros : Prop :=
  (∀ bytes : List Byte, crc (bytes ++ [crc bytes]) = 0x00) ∧
  ∀ (k : Nat) (bytes : List Byte), crc (List.replicate k 0x00 ++ bytes) = crc bytes

open Polynomial in
/-- R92, which the spec marks as general knowledge (log 16): the CRC is the remainder of `M(x) * x^8` by
`x^8 + x^2 + x + 1` over GF(2), the first byte's bit 7 being the highest power. -/
def Obligations.CrcIsPolynomialRemainder : Prop :=
  let bytePoly : Byte → (ZMod 2)[X] := fun b => ∑ k : Fin 8, if b.getLsbD k then X ^ (k : Nat) else 0
  let messagePoly : List Byte → (ZMod 2)[X] := List.foldl (fun m b => m * X ^ 8 + bytePoly b) 0
  ∀ bytes : List Byte, bytePoly (crc bytes) = (messagePoly bytes * X ^ 8) %ₘ (X ^ 8 + X ^ 2 + X + 1)

/-! ## The commands (41_construct_update.md, 42_digest.md, 43_copy_release.md) -/

/-- R101: NEW. -/
def Obligations.NewConstructsEngine : Prop :=
  Selects 0x1000 0xF0FF (fun w => .new (w.extractLsb' 8 4).toNat) ∧
  (∀ (s : State) (a : Nat),
    (s.numInst ≤ a → exec (.new a) s = .next (raiseFault .slotRange s)) ∧
    (∀ v, s.LiveAt a v → exec (.new a) s = .next (raiseFault .slotBusy s)) ∧
    (s.FreeAt a → exec (.new a) s = .next { s with
      slots := s.slots.set a (some 0x00), responses := s.responses ++ [.ok] })) ∧
  (∀ n, 2 ≤ n → n ≤ 16 → ∃ t u,
    step ((State.resetWith n).withFetchWord 16 0x1000) = .next t ∧ t.LiveAt 0 0x00 ∧ t.responses = [.ok] ∧
    step (t.withFetchWord 16 0x4000) = .next u ∧ u.responses = [.ok, .data 0x0000])

/-- R103: UPD. -/
def Obligations.UpdFoldsOneByte : Prop :=
  Selects 0x2000 0xF000 (fun w => .upd (w.extractLsb' 8 4).toNat (w.extractLsb' 0 8)) ∧
  (∀ (s : State) (a : Nat) (imm : Byte),
    (s.numInst ≤ a → exec (.upd a imm) s = .next (raiseFault .slotRange s)) ∧
    (s.FreeAt a → exec (.upd a imm) s = .next (raiseFault .slotNotLive s)) ∧
    (∀ acc, s.LiveAt a acc → exec (.upd a imm) s = .next { s with
      slots := s.slots.set a (some (reduce acc imm)), responses := s.responses ++ [.ok] })) ∧
  reduce 0x00 0x00 = 0x00 ∧ (∀ v, reduce v v = 0x00) ∧ reduce 0x00 0xFF = 0xF3 ∧ reduce 0x00 0x80 = 0x89 ∧
  decode 0x2061 = .ok (.upd 0 0x61) ∧ reduce 0x00 0x61 = 0x20

/-- R106: REJ.TEXT and REJ.OTHER; on a free slot the fault comes first. -/
def Obligations.RejReportsInputTypeError : Prop :=
  Selects 0x3001 0xF0FF (fun w => .rejText (w.extractLsb' 8 4).toNat) ∧
  Selects 0x3002 0xF0FF (fun w => .rejOther (w.extractLsb' 8 4).toNat) ∧
  (∀ (s : State) (a : Nat),
    (s.numInst ≤ a → exec (.rejText a) s = .next (raiseFault .slotRange s) ∧
      exec (.rejOther a) s = .next (raiseFault .slotRange s)) ∧
    (s.FreeAt a → exec (.rejText a) s = .next (raiseFault .slotNotLive s) ∧
      exec (.rejOther a) s = .next (raiseFault .slotNotLive s)) ∧
    (∀ acc, s.LiveAt a acc →
      exec (.rejText a) s = .next { s with responses := s.responses ++ [.err 0x01] } ∧
      exec (.rejOther a) s = .next { s with responses := s.responses ++ [.err 0x02] } ∧
      ∀ t, (exec (.rejText a) s = .next t ∨ exec (.rejOther a) s = .next t) →
        (∀ imm, exec (.upd a imm) t = .next { t with
          slots := s.slots.set a (some (reduce acc imm)), responses := t.responses ++ [.ok] }) ∧
        exec (.dig a) t = .next { t with responses := t.responses ++ [.data (acc.setWidth 16)] })) ∧
  decode 0x3001 = .ok (.rejText 0)

/-- R120: DIG. -/
def Obligations.DigReturnsAccumulator : Prop :=
  Selects 0x4000 0xF0FF (fun w => .dig (w.extractLsb' 8 4).toNat) ∧
  (∀ (s : State) (a : Nat),
    (s.numInst ≤ a → exec (.dig a) s = .next (raiseFault .slotRange s)) ∧
    (s.FreeAt a → exec (.dig a) s = .next (raiseFault .slotNotLive s)) ∧
    (∀ acc, s.LiveAt a acc → ∃ v, exec (.dig a) s = .next { s with responses := s.responses ++ [.data v] } ∧
      v.extractLsb' 8 8 = 0x00 ∧ v.extractLsb' 0 8 = acc)) ∧
  (∀ (s : State), s.LiveAt 0 (crc [0x61, 0x62, 0x63]) →
    exec (.dig 0) s = .next { s with responses := s.responses ++ [.data 0x005F] })

/-- R123: HEX; `hexChar` is the character of R124. -/
def Obligations.HexReturnsTwoCharacters : Prop :=
  Selects 0x5000 0xF0FF (fun w => .hex (w.extractLsb' 8 4).toNat) ∧
  (∀ (s : State) (a : Nat),
    (s.numInst ≤ a → exec (.hex a) s = .next (raiseFault .slotRange s)) ∧
    (s.FreeAt a → exec (.hex a) s = .next (raiseFault .slotNotLive s)) ∧
    (∀ acc, s.LiveAt a acc → ∃ v, exec (.hex a) s = .next { s with responses := s.responses ++ [.data v] } ∧
      v.extractLsb' 8 8 = hexChar (acc.extractLsb' 4 4) ∧ v.extractLsb' 0 8 = hexChar (acc.extractLsb' 0 4))) ∧
  hexData 0x00 = 0x3030 ∧ hexData 0x07 = 0x3037 ∧ hexData 0x5F = 0x3566

/-- R124: the sixteen characters, letters in lowercase, and their order in a response. -/
def Obligations.HexCharacterTable : Prop :=
  (∀ n : Nibble, n ≤ 0x9 → hexChar n = 0x30 + n.setWidth 8) ∧
  [0xA, 0xB, 0xC, 0xD, 0xE, 0xF].map hexChar = [0x61, 0x62, 0x63, 0x64, 0x65, 0x66] ∧
  ∀ v : Byte, (hexData v).extractLsb' 8 8 = hexChar (v.extractLsb' 4 4) ∧
    (hexData v).extractLsb' 0 8 = hexChar (v.extractLsb' 0 4)

/-- R125 (an inference the spec marks as its own): at every state HEX spells the two hexadecimal digits of the byte that DIG
returns, and neither changes a slot or STATUS. -/
def Obligations.HexSpellsTheDigest : Prop :=
  ∀ (s : State) (a : Nat) (acc : Byte), s.LiveAt a acc →
    ∃ d h : DataWord, exec (.dig a) s = .next { s with responses := s.responses ++ [.data d] } ∧
      exec (.hex a) s = .next { s with responses := s.responses ++ [.data h] } ∧
      d.toNat < 256 ∧
      (let digits : List Byte := [0x30, 0x31, 0x32, 0x33, 0x34, 0x35, 0x36, 0x37, 0x38, 0x39,
        0x61, 0x62, 0x63, 0x64, 0x65, 0x66]
      digits[d.toNat / 16]? = some (h.extractLsb' 8 8) ∧ digits[d.toNat % 16]? = some (h.extractLsb' 0 8))

/-- R126: ATTR.DSZ. -/
def Obligations.AttrDszReturnsOne : Prop :=
  Selects 0x8000 0xF0FF (fun w => .attrDsz (w.extractLsb' 8 4).toNat) ∧
  (∀ (s : State) (a : Nat),
    (s.numInst ≤ a → exec (.attrDsz a) s = .next (raiseFault .slotRange s)) ∧
    (s.FreeAt a → exec (.attrDsz a) s = .next (raiseFault .slotNotLive s)) ∧
    (∀ acc, s.LiveAt a acc →
      exec (.attrDsz a) s = .next { s with responses := s.responses ++ [.data 0x0001] })) ∧
  decode 0x8100 = .ok (.attrDsz 1)

/-- R128: ATTR.BSZ. -/
def Obligations.AttrBszReturnsOne : Prop :=
  Selects 0x8001 0xF0FF (fun w => .attrBsz (w.extractLsb' 8 4).toNat) ∧
  (∀ (s : State) (a : Nat),
    (s.numInst ≤ a → exec (.attrBsz a) s = .next (raiseFault .slotRange s)) ∧
    (s.FreeAt a → exec (.attrBsz a) s = .next (raiseFault .slotNotLive s)) ∧
    (∀ acc, s.LiveAt a acc →
      exec (.attrBsz a) s = .next { s with responses := s.responses ++ [.data 0x0001] })) ∧
  decode 0x8101 = .ok (.attrBsz 1)

/-- R135: CPY, with its five faults in their order. -/
def Obligations.CpyClonesAccumulator : Prop :=
  Selects 0x6000 0xF00F (fun w => .cpy (w.extractLsb' 8 4).toNat (w.extractLsb' 4 4).toNat) ∧
  (∀ (s : State) (d src : Nat),
    (s.numInst ≤ d ∨ s.numInst ≤ src → exec (.cpy d src) s = .next (raiseFault .slotRange s)) ∧
    (d < s.numInst → d = src → exec (.cpy d src) s = .next (raiseFault .copySameSlot s)) ∧
    (d < s.numInst → d ≠ src → s.FreeAt src → exec (.cpy d src) s = .next (raiseFault .slotNotLive s)) ∧
    (∀ acc v, d ≠ src → s.LiveAt src acc → s.LiveAt d v →
      exec (.cpy d src) s = .next (raiseFault .slotBusy s)) ∧
    (∀ acc, s.LiveAt src acc → s.FreeAt d →
      exec (.cpy d src) s = .next { s with
        slots := s.slots.set d (some acc), responses := s.responses ++ [.ok] } ∧
      ∀ t, exec (.cpy d src) s = .next t → t.LiveAt d acc ∧ t.LiveAt src acc)) ∧
  decode 0x6100 = .ok (.cpy 1 0)

/-- R140: REL; afterwards every command that needs an engine in the slot faults, and NEW and CPY-into make it live again
with a fresh value. -/
def Obligations.RelFreesSlot : Prop :=
  Selects 0x7000 0xF0FF (fun w => .rel (w.extractLsb' 8 4).toNat) ∧
  (∀ (s : State) (a : Nat),
    (s.numInst ≤ a → exec (.rel a) s = .next (raiseFault .slotRange s)) ∧
    (s.FreeAt a → exec (.rel a) s = .next (raiseFault .slotNotLive s)) ∧
    (∀ acc, s.LiveAt a acc →
      exec (.rel a) s = .next { s with slots := s.slots.set a none, responses := s.responses ++ [.ok] } ∧
      ∀ t, exec (.rel a) s = .next t →
        (∀ j, j ≠ a → t.slots[j]? = s.slots[j]?) ∧
        (∀ i, engineSlot i = some a → (∀ k ∈ slotOperands i, k < t.numInst) → i ≠ .cpy a a →
          exec i t = .next (raiseFault .slotNotLive t)) ∧
        exec (.new a) t = .next { t with
          slots := t.slots.set a (some 0x00), responses := t.responses ++ [.ok] } ∧
        (∀ src v, t.LiveAt src v → exec (.cpy a src) t = .next { t with
          slots := t.slots.set a (some v), responses := t.responses ++ [.ok] }))) ∧
  decode 0x7100 = .ok (.rel 1)

/-! ## Frames, independence and ordering -/

/-- R35: a command that writes `ACC[i]` or `LIVE[i]` changes no other slot; a command that writes none changes no slot. -/
def Obligations.SlotsDoNotAlias : Prop :=
  ∀ (i : Instr) (s t : State), exec i s = .next t →
    (∀ j, writtenSlot i ≠ some j → t.slots[j]? = s.slots[j]?) ∧ (writtenSlot i = none → t.slots = s.slots)

/-- The frame of a command with respect to STATUS: it changes FAULTED and FCODE only by raising a fatal fault, and then it
changes no slot (R155, R160). -/
def Obligations.CommandFaultsPrecisely : Prop :=
  ∀ (i : Instr) (s t : State), exec i s = .next t →
    (t.faulted = s.faulted ∧ t.fcode = s.fcode) ∨
    ∃ f, f ≠ .illegalCommand ∧ t = raiseFault f s ∧ t.slots = s.slots

/-- R48: the queries and the STATUS read repeat without effect, each UPD folds one more byte, a repeated NEW or CPY raises
SLOT_BUSY, a repeated REL SLOT_NOT_LIVE, and REJ changes no state. -/
def Obligations.RepeatedCommands : Prop :=
  (∀ (s : State) (a : Nat) (acc : Byte), s.LiveAt a acc →
    (∀ i ∈ [Instr.dig a, .hex a, .attrDsz a, .attrBsz a, .rejText a, .rejOther a], ∃ r,
      exec i s = .next { s with responses := s.responses ++ [r] } ∧
      exec i { s with responses := s.responses ++ [r] } =
        .next { s with responses := s.responses ++ [r, r] }) ∧
    (∀ imm t, exec (.upd a imm) s = .next t → ∃ u, exec (.upd a imm) t = .next u ∧
      u.LiveAt a (reduce (reduce acc imm) imm)) ∧
    (∀ t, exec (.rel a) s = .next t → exec (.rel a) t = .next (raiseFault .slotNotLive t)) ∧
    (∀ d t, s.FreeAt d → exec (.cpy d a) s = .next t → exec (.cpy d a) t = .next (raiseFault .slotBusy t))) ∧
  (∀ (s t : State) (a : Nat), s.FreeAt a → exec (.new a) s = .next t →
    exec (.new a) t = .next (raiseFault .slotBusy t)) ∧
  (∀ (s : State) (rest : List PortEvent), s.pending = .readStatus :: .readStatus :: rest →
    runSteps 2 s = some { s with
      pending := rest, statusReads := s.statusReads ++ [statusWord s, statusWord s] })

/-- Read after write is exact (R188, an inference the spec marks as its own): DIG, HEX and CPY right after an UPD see its
result, and an UPD of the source right after a CPY leaves the clone with the value from before. -/
def Obligations.ReadAfterWriteIsExact : Prop :=
  ∀ (s : State) (a d : Nat) (acc imm : Byte), s.LiveAt a acc → s.FreeAt d →
    (∃ t, exec (.upd a imm) s = .next t ∧
      exec (.dig a) t = .next { t with responses := t.responses ++ [.data ((reduce acc imm).setWidth 16)] } ∧
      exec (.hex a) t = .next { t with responses := t.responses ++ [.data (hexData (reduce acc imm))] } ∧
      exec (.cpy d a) t = .next { t with
        slots := t.slots.set d (some (reduce acc imm)), responses := t.responses ++ [.ok] }) ∧
    (∃ t u, exec (.cpy d a) s = .next t ∧ exec (.upd a imm) t = .next u ∧
      u.LiveAt d acc ∧ u.LiveAt a (reduce acc imm))

/-- A clone has its source's digest (R138, an inference the spec marks as its own), it is another slot than its source
(R137), and what is then fed to either leaves the other alone (R136). -/
def Obligations.CloneIsEqualThenIndependent : Prop :=
  ∀ (s t : State) (d src : Nat), exec (.cpy d src) s = .next t → t.faulted = false →
    d ≠ src ∧
    (∃ v : DataWord, exec (.dig d) t = .next { t with responses := t.responses ++ [.data v] } ∧
      exec (.dig src) t = .next { t with responses := t.responses ++ [.data v] }) ∧
    (∃ v : DataWord, exec (.hex d) t = .next { t with responses := t.responses ++ [.data v] } ∧
      exec (.hex src) t = .next { t with responses := t.responses ++ [.data v] }) ∧
    (∀ i u, exec i t = .next u → (writtenSlot i = some d → u.slots[src]? = t.slots[src]?) ∧
      (writtenSlot i = some src → u.slots[d]? = t.slots[d]?))

/-! ## Runs: histories and the source's operations -/

/-- R104: an update of `n` bytes is `n` UPD commands, answers `n` times OK and leaves `ACC[A] = fold(ACC[A], S)`; with no
bytes nothing happens. -/
def Obligations.UpdateFoldsByteSequence : Prop :=
  ∀ (s : State) (a : Nat) (acc : Byte) (data : List Byte) (rest : List PortEvent),
    a < 16 → s.faulted = false → s.LiveAt a acc →
    s.pending = (updateCommands a data).map (fun i => .command (encode i)) ++ rest →
    runSteps data.length s = some { s with
      slots := s.slots.set a (some (fold acc data)), pending := rest,
      responses := s.responses ++ List.replicate data.length .ok }

/-- One command keeps accumulators and histories in step (R25, an inference the spec marks as its own): if every live slot
holds the CRC of what its engine has consumed, then so it does after any command that does not fault. -/
def Obligations.CommandKeepsHistories : Prop :=
  ∀ (h : Histories) (s t : State) (i : Instr), Tracks h s → exec i s = .next t → t.faulted = false →
    Tracks (histAfter h i) t

/-- After any list of commands sent from reset, for every bank size: if no fatal fault is recorded, every accumulator is the
CRC of its engine's history, and engines with equal histories hold equal accumulators (R25 and R190, each an inference the
spec marks as its own). -/
def Obligations.RunFromResetTracksHistories : Prop :=
  ∀ (n : Nat) (is : List Instr), 2 ≤ n → n ≤ 16 → (∀ i ∈ is, i.wellFormed = true) →
    ∃ t, runSteps is.length (send is (State.resetWith n)) = some t ∧ t.responses.length = is.length ∧
      (t.faulted = false → Tracks (is.foldl histAfter (List.replicate n none)) t ∧
        ∀ j k bytes, (is.foldl histAfter (List.replicate n none))[j]? = some (some bytes) →
          (is.foldl histAfter (List.replicate n none))[k]? = some (some bytes) →
          t.LiveAt j (crc bytes) ∧ t.LiveAt k (crc bytes))

/-- The host mapping carries the source's engines (R171, in part an inference the spec marks as its own): when the host keeps
to its duties through any list of operations, no fatal fault happens, the responses are exactly the source's results,
and the accumulators go on standing for the engines' histories. -/
def Obligations.HostSessionsRefineSource : Prop :=
  ∀ (h : Histories) (s : State) (cs : List SourceCall),
    Tracks h s → s.numInst ≤ 16 → s.faulted = false → s.pending = [] → SessionAllowed h cs →
    ∃ t, runSteps (sessionCommands cs).length (send (sessionCommands cs) s) = some t ∧
      t.faulted = false ∧ t.fcode = s.fcode ∧ t.pending = [] ∧ t.statusReads = s.statusReads ∧
      t.responses = s.responses ++ sessionResults h cs ∧ Tracks (sessionAfter h cs) t

/-- Determinism without hidden state (R190, an inference the spec marks as its own): two blocks with the same slots, STATUS
fields and pending stream return the same responses and STATUS words, however many steps are taken and whatever was
returned before; what the model records of the past (log 3) is read by nothing. -/
def Obligations.BlocksWithoutHiddenState : Prop :=
  ∀ (n : Nat) (s t s' : State), SameBlock s t → runSteps n s = some s' →
    ∃ t' rs vs, runSteps n t = some t' ∧ SameBlock s' t' ∧
      s'.responses = s.responses ++ rs ∧ t'.responses = t.responses ++ rs ∧
      s'.statusReads = s.statusReads ++ vs ∧ t'.statusReads = t.statusReads ++ vs

/-- One agent class and one mode (R162, R163): what a command word does and answers is settled by the word, the slots and the
two STATUS fields alone. In two states that agree on these, whatever the host did before and has still to send, the same
word writes the same and returns the same response. -/
def Obligations.OneAgentClassAndOneMode : Prop :=
  ∀ (s t : State) (w : CommandWord) (restS restT : List PortEvent),
    s.pending = .command w :: restS → t.pending = .command w :: restT →
    s.slots = t.slots → s.faulted = t.faulted → s.fcode = t.fcode →
    ∃ slots faulted fcode r,
      step s = .next { s with
        slots := slots, faulted := faulted, fcode := fcode, pending := restS, responses := s.responses ++ [r] } ∧
      step t = .next { t with
        slots := slots, faulted := faulted, fcode := fcode, pending := restT, responses := t.responses ++ [r] }
end

