-- ==== Sys2Proof/Laws/Decode.lean ====
section
/-! SUPPORT. A command word and its fields: a word is its fields put together, and a mask of the opcode map picks fields out
(30_encoding.md R61, R64). -/

namespace Sys2Proof

section Fields
variable (op a src : Nibble) (imm : Byte)

@[simp] theorem opField_word : opField (word op a imm) = op := by
  ext i hi
  interval_cases i <;> simp [opField, word]

@[simp] theorem slotField_word : slotField (word op a imm) = a := by
  ext i hi
  interval_cases i <;> simp [slotField, word]

@[simp] theorem immField_word : immField (word op a imm) = imm := by
  ext i hi
  interval_cases i <;> simp [immField, word]

@[simp] theorem srcField_word : srcField (word op a (sourceByte src)) = src := by
  ext i hi
  interval_cases i <;> simp [srcField, word, sourceByte]

@[simp] theorem zeroField_word : zeroField (word op a (sourceByte src)) = 0 := by
  ext i hi
  interval_cases i <;> simp [zeroField, word, sourceByte]

end Fields

section Words
variable (w : CommandWord)

/-- A word is its three fields put together. -/
theorem word_fields : word (opField w) (slotField w) (immField w) = w := by
  ext i hi
  interval_cases i <;> simp [opField, word, slotField, immField]

/-- The mask of formats S and K keeps OP and IMM8. -/
theorem and_mask_opImm : w &&& 0xF0FF = word (opField w) 0 (immField w) := by
  ext i hi
  interval_cases i <;> simp [opField, word, immField]

/-- The mask of format B keeps OP. -/
theorem and_mask_op : w &&& 0xF000 = word (opField w) 0 0 := by
  ext i hi
  interval_cases i <;> simp [opField, word]

/-- The mask of format P keeps OP and Z4. -/
theorem and_mask_opZero : w &&& 0xF00F = word (opField w) 0 ((zeroField w).setWidth 8) := by
  ext i hi
  interval_cases i <;> simp [opField, word, zeroField]

/-- IMM8 is SRC above Z4, so with Z4 zero it is SRC's byte. -/
theorem immField_eq_sourceByte (h : zeroField w = 0) : immField w = sourceByte (srcField w) := by
  have hz : ∀ i : Fin 4, w.getLsbD i = false := fun i => by
    have := congrArg (fun z : Nibble => z[i.val]) h
    simpa [zeroField] using this
  ext i hi
  have h0 := hz 0; have h1 := hz 1; have h2 := hz 2; have h3 := hz 3
  interval_cases i <;> simp_all [immField, sourceByte, srcField]

end Words

/-- Words with equal fields are equal words, and only those. -/
theorem word_inj {op op' a a' : Nibble} {imm imm' : Byte} :
    word op a imm = word op' a' imm' ↔ op = op' ∧ a = a' ∧ imm = imm' := by
  constructor
  · intro h
    exact ⟨by simpa using congrArg opField h, by simpa using congrArg slotField h,
      by simpa using congrArg immField h⟩
  · rintro ⟨rfl, rfl, rfl⟩; rfl

/-- A row of formats S and K matches the words with its opcode and its low byte. -/
theorem matches_opImm (w : CommandWord) (op : Nibble) (imm : Byte) :
    w &&& 0xF0FF = word op 0 imm ↔ opField w = op ∧ immField w = imm := by
  rw [and_mask_opImm, word_inj]; simp

/-- A row of format B matches the words with its opcode. -/
theorem matches_op (w : CommandWord) (op : Nibble) : w &&& 0xF000 = word op 0 0 ↔ opField w = op := by
  rw [and_mask_op, word_inj]; simp

/-- A row of format P matches the words with its opcode and a zero Z4. -/
theorem matches_opZero (w : CommandWord) (op : Nibble) :
    w &&& 0xF00F = word op 0 0 ↔ opField w = op ∧ zeroField w = 0 := by
  rw [and_mask_opZero, word_inj]
  have : (zeroField w).setWidth 8 = 0#8 ↔ zeroField w = 0#4 := by
    generalize zeroField w = z
    revert z; decide
  simp [this]

/-- Two-way form of the decoder's test of the low byte. -/
theorem whenImm_eq_ok {w : CommandWord} {k : Byte} {i j : Instr} :
    whenImm w k i = .ok j ↔ immField w = k ∧ i = j := by
  unfold whenImm
  split <;> simp_all

end Sys2Proof
end

