-- ==== Sys2Proof/Laws/State.lean ====
section
/-! SUPPORT. What each named update does to each field of the state. All are true by unfolding the update once. -/

namespace Sys2Proof.Machine

section Updates
variable (s : State) (r : Response) (i n : Nat) (v : Byte) (f : FatalFault) (c : InputTypeCause) (w : CommandWord)
variable (is : List Instr)

@[simp] theorem respond_slots : (respond r s).slots = s.slots := rfl
@[simp] theorem respond_faulted : (respond r s).faulted = s.faulted := rfl
@[simp] theorem respond_fcode : (respond r s).fcode = s.fcode := rfl
@[simp] theorem respond_pending : (respond r s).pending = s.pending := rfl
@[simp] theorem respond_responses : (respond r s).responses = s.responses ++ [r] := rfl
@[simp] theorem respond_statusReads : (respond r s).statusReads = s.statusReads := rfl

@[simp] theorem writeAcc_slots : (writeAcc i v s).slots = s.slots.set i (some v) := rfl
@[simp] theorem writeAcc_faulted : (writeAcc i v s).faulted = s.faulted := rfl
@[simp] theorem writeAcc_fcode : (writeAcc i v s).fcode = s.fcode := rfl
@[simp] theorem writeAcc_pending : (writeAcc i v s).pending = s.pending := rfl
@[simp] theorem writeAcc_responses : (writeAcc i v s).responses = s.responses := rfl
@[simp] theorem writeAcc_statusReads : (writeAcc i v s).statusReads = s.statusReads := rfl

@[simp] theorem freeSlot_slots : (freeSlot i s).slots = s.slots.set i none := rfl
@[simp] theorem freeSlot_faulted : (freeSlot i s).faulted = s.faulted := rfl
@[simp] theorem freeSlot_fcode : (freeSlot i s).fcode = s.fcode := rfl
@[simp] theorem freeSlot_pending : (freeSlot i s).pending = s.pending := rfl
@[simp] theorem freeSlot_responses : (freeSlot i s).responses = s.responses := rfl
@[simp] theorem freeSlot_statusReads : (freeSlot i s).statusReads = s.statusReads := rfl

@[simp] theorem raiseInputTypeError_slots : (raiseInputTypeError c s).slots = s.slots := rfl
@[simp] theorem raiseInputTypeError_faulted : (raiseInputTypeError c s).faulted = s.faulted := rfl
@[simp] theorem raiseInputTypeError_fcode : (raiseInputTypeError c s).fcode = s.fcode := rfl
@[simp] theorem raiseInputTypeError_pending : (raiseInputTypeError c s).pending = s.pending := rfl
@[simp] theorem raiseInputTypeError_responses :
    (raiseInputTypeError c s).responses = s.responses ++ [.err c.code] := rfl
@[simp] theorem raiseInputTypeError_statusReads : (raiseInputTypeError c s).statusReads = s.statusReads := rfl

@[simp] theorem raiseFault_slots : (raiseFault f s).slots = s.slots := rfl
@[simp] theorem raiseFault_faulted : (raiseFault f s).faulted = true := rfl
@[simp] theorem raiseFault_fcode : (raiseFault f s).fcode = f.code.setWidth 4 := rfl
@[simp] theorem raiseFault_pending : (raiseFault f s).pending = s.pending := rfl
@[simp] theorem raiseFault_responses : (raiseFault f s).responses = s.responses ++ [.err f.code] := rfl
@[simp] theorem raiseFault_statusReads : (raiseFault f s).statusReads = s.statusReads := rfl

@[simp] theorem refuseFaulted_slots : (refuseFaulted s).slots = s.slots := rfl
@[simp] theorem refuseFaulted_faulted : (refuseFaulted s).faulted = s.faulted := rfl
@[simp] theorem refuseFaulted_fcode : (refuseFaulted s).fcode = s.fcode := rfl
@[simp] theorem refuseFaulted_pending : (refuseFaulted s).pending = s.pending := rfl
@[simp] theorem refuseFaulted_responses :
    (refuseFaulted s).responses = s.responses ++ [.err (s.fcode.setWidth 8)] := rfl
@[simp] theorem refuseFaulted_statusReads : (refuseFaulted s).statusReads = s.statusReads := rfl

@[simp] theorem resetBlock_slots : (resetBlock s).slots = List.replicate s.slots.length none := rfl
@[simp] theorem resetBlock_faulted : (resetBlock s).faulted = false := rfl
@[simp] theorem resetBlock_fcode : (resetBlock s).fcode = 0x0 := rfl
@[simp] theorem resetBlock_pending : (resetBlock s).pending = s.pending := rfl
@[simp] theorem resetBlock_responses : (resetBlock s).responses = s.responses := rfl
@[simp] theorem resetBlock_statusReads : (resetBlock s).statusReads = s.statusReads := rfl

@[simp] theorem readStatus_slots : (readStatus s).slots = s.slots := rfl
@[simp] theorem readStatus_faulted : (readStatus s).faulted = s.faulted := rfl
@[simp] theorem readStatus_fcode : (readStatus s).fcode = s.fcode := rfl
@[simp] theorem readStatus_pending : (readStatus s).pending = s.pending := rfl
@[simp] theorem readStatus_responses : (readStatus s).responses = s.responses := rfl
@[simp] theorem readStatus_statusReads : (readStatus s).statusReads = s.statusReads ++ [statusWord s] := rfl

@[simp] theorem offerFirst_slots : (offerFirst w s).slots = s.slots := rfl
@[simp] theorem offerFirst_faulted : (offerFirst w s).faulted = s.faulted := rfl
@[simp] theorem offerFirst_fcode : (offerFirst w s).fcode = s.fcode := rfl
@[simp] theorem offerFirst_pending : (offerFirst w s).pending = .command w :: s.pending := rfl
@[simp] theorem offerFirst_responses : (offerFirst w s).responses = s.responses := rfl
@[simp] theorem offerFirst_statusReads : (offerFirst w s).statusReads = s.statusReads := rfl

@[simp] theorem send_slots : (send is s).slots = s.slots := rfl
@[simp] theorem send_faulted : (send is s).faulted = s.faulted := rfl
@[simp] theorem send_fcode : (send is s).fcode = s.fcode := rfl
@[simp] theorem send_pending :
    (send is s).pending = s.pending ++ is.map fun i => PortEvent.command (encode i) := rfl
@[simp] theorem send_responses : (send is s).responses = s.responses := rfl
@[simp] theorem send_statusReads : (send is s).statusReads = s.statusReads := rfl

@[simp] theorem resetWith_slots : (State.resetWith n).slots = List.replicate n none := rfl
@[simp] theorem resetWith_faulted : (State.resetWith n).faulted = false := rfl
@[simp] theorem resetWith_fcode : (State.resetWith n).fcode = 0x0 := rfl
@[simp] theorem resetWith_pending : (State.resetWith n).pending = [] := rfl
@[simp] theorem resetWith_responses : (State.resetWith n).responses = [] := rfl
@[simp] theorem resetWith_statusReads : (State.resetWith n).statusReads = [] := rfl

end Updates

/-! ## The bank size never changes -/

theorem numInst_eq (s : State) : s.numInst = s.slots.length := rfl

@[simp] theorem respond_numInst (r : Response) (s : State) : (respond r s).numInst = s.numInst := rfl
@[simp] theorem raiseFault_numInst (f : FatalFault) (s : State) : (raiseFault f s).numInst = s.numInst := rfl
@[simp] theorem writeAcc_numInst (i : Nat) (v : Byte) (s : State) : (writeAcc i v s).numInst = s.numInst := by
  simp [State.numInst]
@[simp] theorem freeSlot_numInst (i : Nat) (s : State) : (freeSlot i s).numInst = s.numInst := by
  simp [State.numInst]
@[simp] theorem resetBlock_numInst (s : State) : (resetBlock s).numInst = s.numInst := by
  simp [State.numInst]
@[simp] theorem resetWith_numInst (n : Nat) : (State.resetWith n).numInst = n := by
  simp [State.numInst]

end Sys2Proof.Machine
end

