-- ==== Sys2Proof/Laws/Operands.lean ====
section
/-! SUPPORT. The three situations of a slot operand, and what the shared starts of a command do in each (R100). -/

namespace Sys2Proof.Machine

/-- A slot operand is outside the bank, names a free slot, or names an engine. -/
theorem slot_cases (s : State) (i : Nat) : s.numInst ≤ i ∨ s.FreeAt i ∨ ∃ v, s.LiveAt i v := by
  rcases hv : s.slots[i]? with _ | _ | v
  · exact .inl (List.getElem?_eq_none_iff.mp hv)
  · exact .inr (.inl hv)
  · exact .inr (.inr ⟨v, hv⟩)

theorem State.FreeAt.lt {s : State} {i : Nat} (h : s.FreeAt i) : i < s.numInst :=
  (List.getElem?_eq_some_iff.mp h).1

theorem State.LiveAt.lt {s : State} {i : Nat} {v : Byte} (h : s.LiveAt i v) : i < s.numInst :=
  (List.getElem?_eq_some_iff.mp h).1

theorem State.LiveAt.not_free {s : State} {i : Nat} {v : Byte} (h : s.LiveAt i v) : ¬ s.FreeAt i := by
  simp [State.FreeAt, show s.slots[i]? = _ from h]

theorem checkSlot_range {s : State} {i : Nat} (h : s.numInst ≤ i) : checkSlot i s = .error .slotRange := by
  simp [checkSlot, h]

theorem checkSlot_ok {s : State} {i : Nat} (h : i < s.numInst) : checkSlot i s = .ok () := by
  simp [checkSlot, Nat.not_le.mpr h]

theorem needLive_live {s : State} {i : Nat} {v : Byte} (h : s.LiveAt i v) : needLive i s = .ok v := by
  simp [needLive, show s.slots[i]? = _ from h]

theorem needLive_free {s : State} {i : Nat} (h : s.FreeAt i) : needLive i s = .error .slotNotLive := by
  simp [needLive, show s.slots[i]? = _ from h]

theorem needFree_free {s : State} {i : Nat} (h : s.FreeAt i) : needFree i s = .ok () := by
  simp [needFree, show s.slots[i]? = _ from h]

theorem needFree_live {s : State} {i : Nat} {v : Byte} (h : s.LiveAt i v) : needFree i s = .error .slotBusy := by
  simp [needFree, show s.slots[i]? = _ from h]

section Starts
variable {s : State} {a : Nat} {acc : Byte}

theorem withLive_range (body : Byte → State) (h : s.numInst ≤ a) :
    withLive a body s = .next (raiseFault .slotRange s) := by
  simp [withLive, checkSlot_range h, settle, bind, Except.bind]

theorem withLive_free (body : Byte → State) (h : s.FreeAt a) :
    withLive a body s = .next (raiseFault .slotNotLive s) := by
  simp [withLive, checkSlot_ok h.lt, needLive_free h, settle, bind, Except.bind]

theorem withLive_live (body : Byte → State) (h : s.LiveAt a acc) : withLive a body s = .next (body acc) := by
  simp [withLive, checkSlot_ok h.lt, needLive_live h, settle, bind, Except.bind]

theorem withFree_range (body : State) (h : s.numInst ≤ a) :
    withFree a body s = .next (raiseFault .slotRange s) := by
  simp [withFree, checkSlot_range h, settle, bind, Except.bind]

theorem withFree_live (body : State) (h : s.LiveAt a acc) :
    withFree a body s = .next (raiseFault .slotBusy s) := by
  simp [withFree, checkSlot_ok h.lt, needFree_live h, settle, bind, Except.bind]

theorem withFree_free (body : State) (h : s.FreeAt a) : withFree a body s = .next body := by
  simp [withFree, checkSlot_ok h.lt, needFree_free h, settle, bind, Except.bind]

end Starts

/-- Everything that a command starting with `withLive` can answer. -/
theorem withLive_cases (a : Nat) (body : Byte → State) (s : State) :
    (s.numInst ≤ a ∧ withLive a body s = .next (raiseFault .slotRange s)) ∨
    (s.FreeAt a ∧ withLive a body s = .next (raiseFault .slotNotLive s)) ∨
    (∃ acc, s.LiveAt a acc ∧ withLive a body s = .next (body acc)) := by
  obtain h | h | ⟨v, h⟩ := slot_cases s a
  · exact .inl ⟨h, withLive_range body h⟩
  · exact .inr (.inl ⟨h, withLive_free body h⟩)
  · exact .inr (.inr ⟨v, h, withLive_live body h⟩)

/-- Everything that a command starting with `withFree` can answer. -/
theorem withFree_cases (a : Nat) (body : State) (s : State) :
    (s.numInst ≤ a ∧ withFree a body s = .next (raiseFault .slotRange s)) ∨
    (s.FreeAt a ∧ withFree a body s = .next body) ∨
    (∃ acc, s.LiveAt a acc ∧ withFree a body s = .next (raiseFault .slotBusy s)) := by
  obtain h | h | ⟨v, h⟩ := slot_cases s a
  · exact .inl ⟨h, withFree_range body h⟩
  · exact .inr (.inl ⟨h, withFree_free body h⟩)
  · exact .inr (.inr ⟨v, h, withFree_live body h⟩)

section Cpy
variable {s : State} {d src : Nat} {acc : Byte}

theorem execCpy_range_dest (h : s.numInst ≤ d) : execCpy d src s = .next (raiseFault .slotRange s) := by
  simp [execCpy, cpyChecks, checkSlot_range h, settle, bind, Except.bind]

theorem execCpy_range_source (hd : d < s.numInst) (h : s.numInst ≤ src) :
    execCpy d src s = .next (raiseFault .slotRange s) := by
  simp [execCpy, cpyChecks, checkSlot_ok hd, checkSlot_range h, settle, bind, Except.bind]

theorem execCpy_same (h : d < s.numInst) : execCpy d d s = .next (raiseFault .copySameSlot s) := by
  simp [execCpy, cpyChecks, checkSlot_ok h, checkDistinct, settle, bind, Except.bind]

theorem execCpy_source_free (hd : d < s.numInst) (hne : d ≠ src) (h : s.FreeAt src) :
    execCpy d src s = .next (raiseFault .slotNotLive s) := by
  simp [execCpy, cpyChecks, checkSlot_ok hd, checkSlot_ok h.lt, checkDistinct, hne, needLive_free h, settle, bind,
    Except.bind]

theorem execCpy_dest_live {v : Byte} (hne : d ≠ src) (hs : s.LiveAt src acc) (hd : s.LiveAt d v) :
    execCpy d src s = .next (raiseFault .slotBusy s) := by
  simp [execCpy, cpyChecks, checkSlot_ok hd.lt, checkSlot_ok hs.lt, checkDistinct, hne, needLive_live hs,
    needFree_live hd, settle, bind, Except.bind]

theorem execCpy_copies (hs : s.LiveAt src acc) (hd : s.FreeAt d) :
    execCpy d src s = .next (respond .ok (writeAcc d acc s)) := by
  have hne : d ≠ src := fun e => hs.not_free (e ▸ hd)
  simp [execCpy, cpyChecks, checkSlot_ok hd.lt, checkSlot_ok hs.lt, checkDistinct, hne, needLive_live hs,
    needFree_free hd, settle, bind, Except.bind, pure, Except.pure]

end Cpy

/-- Everything that CPY can answer: one of its four fatal faults, or the copy. -/
theorem execCpy_cases (d src : Nat) (s : State) :
    (∃ f, (f = .slotRange ∨ f = .copySameSlot ∨ f = .slotNotLive ∨ f = .slotBusy) ∧
      execCpy d src s = .next (raiseFault f s)) ∨
    (∃ acc, s.LiveAt src acc ∧ s.FreeAt d ∧ execCpy d src s = .next (respond .ok (writeAcc d acc s))) := by
  rcases Nat.lt_or_ge d s.numInst with hd | hd
  · obtain hs | hs | ⟨acc, hs⟩ := slot_cases s src
    · exact .inl ⟨_, by simp, execCpy_range_source hd hs⟩
    · by_cases hne : d = src
      · subst hne; exact .inl ⟨_, by simp, execCpy_same hd⟩
      · exact .inl ⟨_, by simp, execCpy_source_free hd hne hs⟩
    · by_cases hne : d = src
      · subst hne; exact .inl ⟨_, by simp, execCpy_same hd⟩
      · obtain h | h | ⟨v, h⟩ := slot_cases s d
        · exact absurd hd (Nat.not_lt.mpr h)
        · exact .inr ⟨acc, hs, h, execCpy_copies hs h⟩
        · exact .inl ⟨_, by simp, execCpy_dest_live hne hs h⟩
  · exact .inl ⟨_, by simp, execCpy_range_dest hd⟩

end Sys2Proof.Machine
end

