-- ==== Sys2Proof/Laws/Exec.lean ====
section
/-! SUPPORT. What a command, a port event and a run of steps can do, said once. Later proofs cite these instead of unfolding
`exec`, `step` or `runSteps`. -/

namespace Sys2Proof.Machine

/-- Everything a command can do: raise one of its row's fatal faults, or return one of its row's responses after writing at
most the slot it writes. -/
theorem exec_cases (i : Instr) (s : State) :
    (∃ f, f ≠ .illegalCommand ∧ f.code ∈ possibleErrors i ∧ exec i s = .next (raiseFault f s)) ∨
    (∃ r slots, exec i s = .next (respond r { s with slots := slots }) ∧ MayAnswer i r ∧
      (∀ c, r = .err c → c = 0x01 ∨ c = 0x02) ∧ slots.length = s.slots.length ∧
      (writtenSlot i = none → slots = s.slots) ∧
      (∀ j, writtenSlot i ≠ some j → slots[j]? = s.slots[j]?)) := by
  have live : ∀ (a : Nat) (body : Byte → State), exec i s = withLive a body s →
      (0x09 : Byte) ∈ possibleErrors i → (0x0A : Byte) ∈ possibleErrors i →
      (∃ f, f ≠ .illegalCommand ∧ f.code ∈ possibleErrors i ∧ exec i s = .next (raiseFault f s)) ∨
        ∃ acc, exec i s = .next (body acc) := by
    intro a body e h9 hA
    rw [e]
    obtain ⟨-, h⟩ | ⟨-, h⟩ | ⟨acc, -, h⟩ := withLive_cases a body s
    · exact .inl ⟨.slotRange, by simp, h9, h⟩
    · exact .inl ⟨.slotNotLive, by simp, hA, h⟩
    · exact .inr ⟨acc, h⟩
  cases i with
  | new a =>
    obtain ⟨-, h⟩ | ⟨-, h⟩ | ⟨acc, -, h⟩ := withFree_cases a (respond .ok (writeAcc a Config.init s)) s
    · exact .inl ⟨_, by simp, by simp [possibleErrors, FatalFault.code], h⟩
    · refine .inr ⟨.ok, s.slots.set a (some Config.init), h, ?_⟩
      simp +contextual [MayAnswer, writtenSlot, List.getElem?_set_ne]
    · exact .inl ⟨_, by simp, by simp [possibleErrors, FatalFault.code], h⟩
  | upd a imm =>
    refine (live a _ rfl (by simp [possibleErrors]) (by simp [possibleErrors])).imp_right ?_
    rintro ⟨acc, h⟩
    refine ⟨.ok, s.slots.set a (some (reduce acc imm)), h, ?_⟩
    simp +contextual [MayAnswer, writtenSlot, List.getElem?_set_ne]
  | rejText a =>
    refine (live a _ rfl (by simp [possibleErrors]) (by simp [possibleErrors])).imp_right ?_
    rintro ⟨acc, h⟩
    exact ⟨.err 0x01, s.slots, h, by simp [MayAnswer, possibleErrors]⟩
  | rejOther a =>
    refine (live a _ rfl (by simp [possibleErrors]) (by simp [possibleErrors])).imp_right ?_
    rintro ⟨acc, h⟩
    exact ⟨.err 0x02, s.slots, h, by simp [MayAnswer, possibleErrors]⟩
  | dig a =>
    refine (live a _ rfl (by simp [possibleErrors]) (by simp [possibleErrors])).imp_right ?_
    rintro ⟨acc, h⟩
    exact ⟨_, s.slots, h, by simp [MayAnswer]⟩
  | hex a =>
    refine (live a _ rfl (by simp [possibleErrors]) (by simp [possibleErrors])).imp_right ?_
    rintro ⟨acc, h⟩
    exact ⟨_, s.slots, h, by simp [MayAnswer]⟩
  | cpy d src =>
    rcases execCpy_cases d src s with ⟨f, hf, h⟩ | ⟨acc, -, -, h⟩
    · refine .inl ⟨f, ?_, ?_, h⟩ <;> rcases hf with rfl | rfl | rfl | rfl <;>
        simp [possibleErrors, FatalFault.code]
    · refine .inr ⟨.ok, s.slots.set d (some acc), h, ?_⟩
      simp +contextual [MayAnswer, writtenSlot, List.getElem?_set_ne]
  | rel a =>
    refine (live a _ rfl (by simp [possibleErrors]) (by simp [possibleErrors])).imp_right ?_
    rintro ⟨acc, h⟩
    refine ⟨.ok, s.slots.set a none, h, ?_⟩
    simp +contextual [MayAnswer, writtenSlot, List.getElem?_set_ne]
  | attrDsz a =>
    refine (live a _ rfl (by simp [possibleErrors]) (by simp [possibleErrors])).imp_right ?_
    rintro ⟨acc, h⟩
    exact ⟨_, s.slots, h, by simp [MayAnswer, Config.digestSize]⟩
  | attrBsz a =>
    refine (live a _ rfl (by simp [possibleErrors]) (by simp [possibleErrors])).imp_right ?_
    rintro ⟨acc, h⟩
    exact ⟨_, s.slots, h, by simp [MayAnswer, Config.blockSize]⟩

/-! ## The port -/

section Port
variable {s : State} {rest : List PortEvent} {w : CommandWord}

theorem step_idle (h : s.pending = []) : step s = .next s := by
  simp [step, acceptNext, h]

theorem step_event {e : PortEvent} (h : s.pending = e :: rest) :
    step s = acceptEvent e { s with pending := rest } := by
  simp [step, acceptNext, h]

theorem step_reset (h : s.pending = .reset :: rest) : step s = .next (resetBlock { s with pending := rest }) :=
  step_event h

theorem step_readStatus (h : s.pending = .readStatus :: rest) :
    step s = .next (readStatus { s with pending := rest }) := step_event h

theorem step_refused (h : s.pending = .command w :: rest) (hf : s.faulted = true) :
    step s = .next (refuseFaulted { s with pending := rest }) := by
  rw [step_event h]; simp [acceptEvent, acceptCommand, hf]

theorem step_illegal {e : IllegalCommand} (h : s.pending = .command w :: rest) (hf : s.faulted = false)
    (hd : decode w = .error e) : step s = .next (raiseFault .illegalCommand { s with pending := rest }) := by
  rw [step_event h]; simp [acceptEvent, acceptCommand, hf, hd]

end Port

/-- Everything a step can do: hold the state, read STATUS, reset, refuse a word in the faulted state, raise a fatal fault,
or return one response after writing slots. -/
theorem step_cases {s t : State} (h : step s = .next t) :
    (s.pending = [] ∧ t = s) ∨
    (∃ rest, s.pending = .readStatus :: rest ∧ t = readStatus { s with pending := rest }) ∨
    (∃ rest, s.pending = .reset :: rest ∧ t = resetBlock { s with pending := rest }) ∨
    (∃ w rest, s.pending = .command w :: rest ∧
      ((s.faulted = true ∧ t = refuseFaulted { s with pending := rest }) ∨
        (s.faulted = false ∧ ∃ f, t = raiseFault f { s with pending := rest }) ∨
        (s.faulted = false ∧ ∃ i r slots, decode w = .ok i ∧ exec i { s with pending := rest } = .next t ∧
          t = respond r { s with slots := slots, pending := rest } ∧ MayAnswer i r ∧
          (∀ c, r = .err c → c = 0x01 ∨ c = 0x02) ∧ slots.length = s.slots.length ∧
          (writtenSlot i = none → slots = s.slots)))) := by
  rcases hp : s.pending with _ | ⟨e, rest⟩
  · rw [step_idle hp] at h
    cases h
    exact .inl ⟨rfl, rfl⟩
  refine .inr ?_
  cases e with
  | readStatus => rw [step_readStatus hp] at h; cases h; exact .inl ⟨rest, rfl, rfl⟩
  | reset => rw [step_reset hp] at h; cases h; exact .inr (.inl ⟨rest, rfl, rfl⟩)
  | command w =>
    refine .inr (.inr ⟨w, rest, rfl, ?_⟩)
    by_cases hf : s.faulted = true
    · rw [step_refused hp hf] at h
      cases h
      exact .inl ⟨hf, rfl⟩
    replace hf : s.faulted = false := by simpa using hf
    refine .inr ?_
    cases hd : decode w with
    | error e => rw [step_illegal hp hf hd] at h; cases h; exact .inl ⟨hf, _, rfl⟩
    | ok i =>
      have hx : exec i { s with pending := rest } = .next t := by
        rw [step_event hp] at h
        simpa [acceptEvent, acceptCommand, hf, hd] using h
      obtain ⟨f, -, -, e⟩ | ⟨r, slots, e, hr, hc, hl, hn, -⟩ := exec_cases i { s with pending := rest }
      · rw [hx] at e
        cases e
        exact .inl ⟨hf, f, rfl⟩
      · have ht := hx
        rw [e] at ht
        cases ht
        exact .inr ⟨hf, i, r, slots, rfl, hx, rfl, hr, hc, hl, hn⟩

/-! ## Runs -/

@[simp] theorem runSteps_zero (s : State) : runSteps 0 s = some s := rfl

theorem runSteps_succ {n : Nat} {s t : State} (h : step s = .next t) : runSteps (n + 1) s = runSteps n t := by
  simp [runSteps, h]

/-- A run of `m + n` steps is a run of `m` and then one of `n`. -/
theorem runSteps_add (m n : Nat) (s : State) : runSteps (m + n) s = (runSteps m s).bind (runSteps n) := by
  induction m generalizing s with
  | zero => simp
  | succ m ih =>
    rw [Nat.succ_add]
    simp only [runSteps]
    split <;> simp [ih]

end Sys2Proof.Machine
end

