-- ==== Sys2Proof/Laws/PerInstr.lean ====
section
/-! SUPPORT. Facts that hold of every command as syntax, one lemma per constructor. `FixedBits`: the word of a command carries
the fixed bits of the command's row of the opcode map (30_encoding.md R64), whatever its operands are. -/

namespace Sys2Proof.Laws.FixedBits

/-- The command's word matches the command's row. -/
def Statement (i : Instr) : Prop := i.row.Matches (encode i)

theorem new (a : Nat) : Statement (.new a) := (matches_opImm _ 0x1 0x00).mpr (by simp [encode])
theorem upd (a : Nat) (imm : Byte) : Statement (.upd a imm) := (matches_op _ 0x2).mpr (by simp [encode])
theorem rejText (a : Nat) : Statement (.rejText a) := (matches_opImm _ 0x3 0x01).mpr (by simp [encode])
theorem rejOther (a : Nat) : Statement (.rejOther a) := (matches_opImm _ 0x3 0x02).mpr (by simp [encode])
theorem dig (a : Nat) : Statement (.dig a) := (matches_opImm _ 0x4 0x00).mpr (by simp [encode])
theorem hex (a : Nat) : Statement (.hex a) := (matches_opImm _ 0x5 0x00).mpr (by simp [encode])
theorem cpy (d src : Nat) : Statement (.cpy d src) := (matches_opZero _ 0x6).mpr (by simp [encode])
theorem rel (a : Nat) : Statement (.rel a) := (matches_opImm _ 0x7 0x00).mpr (by simp [encode])
theorem attrDsz (a : Nat) : Statement (.attrDsz a) := (matches_opImm _ 0x8 0x00).mpr (by simp [encode])
theorem attrBsz (a : Nat) : Statement (.attrBsz a) := (matches_opImm _ 0x8 0x01).mpr (by simp [encode])

end Sys2Proof.Laws.FixedBits
end

