-- ==== Sys2Proof/Tests/Slice0.lean ====
section
/-! SUPPORT. Tests whose expected values come from the spec (95_test_vectors.md, the examples of the command rules, or words
written out bit by bit from 30_encoding.md), and witnesses that the hypotheses of the statements can be met. -/

namespace Sys2Proof.Tests

open Sys2Proof.Machine

/-! ## Helpers -/

/-- A bank that is not faulted, with these slots and this stream. -/
def bank (slots : List Slot) (pending : List PortEvent := []) : State where
  slots := slots
  faulted := false
  fcode := 0x0
  pending := pending
  responses := []
  statusReads := []

/-- A bank that has recorded SLOT_NOT_LIVE (V24). -/
def faultedBank (slots : List Slot) (pending : List PortEvent := []) : State :=
  { bank slots pending with faulted := true, fcode := 0xA }

/-- The next state of an outcome. -/
def next (o : Result) : Option State :=
  match o with
  | .next s => some s
  | .fault _ => none
  | .refused _ => none

/-- The slots, the responses and STATUS after one step with this word offered first. -/
def after (s : State) (w : CommandWord) : Option (List Slot × List Response × DataWord) :=
  (next (step (offerFirst w s))).map fun t => (t.slots, t.responses, statusWord t)

/-- Four free slots: `NUM_INST = 4`, as the vectors assume. -/
def free4 : List Slot := [none, none, none, none]

/-! ## WellFormed refuses what has no encoding (one ill-formed term for each check) -/

theorem test_wellFormed_new : (Instr.new 16).wellFormed = false := by decide
theorem test_wellFormed_upd : (Instr.upd 16 0x00).wellFormed = false := by decide
theorem test_wellFormed_rejText : (Instr.rejText 16).wellFormed = false := by decide
theorem test_wellFormed_rejOther : (Instr.rejOther 16).wellFormed = false := by decide
theorem test_wellFormed_dig : (Instr.dig 16).wellFormed = false := by decide
theorem test_wellFormed_hex : (Instr.hex 16).wellFormed = false := by decide
theorem test_wellFormed_cpy_dest : (Instr.cpy 16 0).wellFormed = false := by decide
theorem test_wellFormed_cpy_source : (Instr.cpy 0 16).wellFormed = false := by decide
theorem test_wellFormed_rel : (Instr.rel 16).wellFormed = false := by decide
theorem test_wellFormed_attrDsz : (Instr.attrDsz 16).wellFormed = false := by decide
theorem test_wellFormed_attrBsz : (Instr.attrBsz 16).wellFormed = false := by decide
theorem test_wellFormed_accepts : (Instr.cpy 15 0).wellFormed = true ∧ (Instr.upd 15 0xFF).wellFormed = true := by
  decide

/-! ## Decoding: words written out from the patterns of R62 and R64 -/

theorem test_decode_new : decode 0b0001_1010_0000_0000 = .ok (.new 10) := by decide
theorem test_decode_upd : decode 0b0010_0101_1000_0001 = .ok (.upd 5 0x81) := by decide
theorem test_decode_rejText : decode 0b0011_0110_0000_0001 = .ok (.rejText 6) := by decide
theorem test_decode_rejOther : decode 0b0011_1001_0000_0010 = .ok (.rejOther 9) := by decide
theorem test_decode_dig : decode 0b0100_0011_0000_0000 = .ok (.dig 3) := by decide
theorem test_decode_hex : decode 0b0101_1100_0000_0000 = .ok (.hex 12) := by decide
theorem test_decode_cpy : decode 0b0110_0001_1000_0000 = .ok (.cpy 1 8) := by decide
theorem test_decode_rel : decode 0b0111_1111_0000_0000 = .ok (.rel 15) := by decide
theorem test_decode_attrDsz : decode 0b1000_0010_0000_0000 = .ok (.attrDsz 2) := by decide
theorem test_decode_attrBsz : decode 0b1000_0100_0000_0001 = .ok (.attrBsz 4) := by decide

/-- V22: words that decode. -/
theorem test_decode_V22 : decode 0x2000 = .ok (.upd 0 0x00) ∧ decode 0x20FF = .ok (.upd 0 0xFF) ∧
    decode 0x6F00 = .ok (.cpy 15 0) ∧ decode 0x8F01 = .ok (.attrBsz 15) := by decide

/-- V22: words that raise ILLEGAL_COMMAND, by the name of what is wrong. -/
theorem test_decode_illegal_V22 :
    decode 0x0000 = .error .reservedOpcode ∧ decode 0xFFFF = .error .reservedOpcode ∧
    decode 0x9000 = .error .reservedOpcode ∧ decode 0x1001 = .error .reservedField ∧
    decode 0x6101 = .error .reservedField ∧ decode 0x3000 = .error .reservedField ∧
    decode 0x3003 = .error .reservedField ∧ decode 0x8002 = .error .reservedField := by decide

/-- R70's table: `REJ.OTHER sA` is `0x3A02` and `CPY sD, sS` is `0x6000 + (D<<8) + (S<<4)`. -/
theorem test_encode_R70 : encode (.rejOther 7) = 0x3702 ∧ encode (.cpy 14 3) = 0x6E30 ∧
    encode (.upd 10 0x61) = 0x2A61 := by decide

/-- The host's reading of a table row: the row's fixed bits with every operand bit zero. -/
theorem test_decodeTableWord : decodeTableWord 16 0x6000 = some (.cpy 0 0) ∧ decodeTableWord 16 0x0000 = none := by
  decide

/-- The offered word is the next command, from reset. -/
theorem test_withFetchWord :
    (next (step (State.reset.withFetchWord 16 0x1000))).map State.slots = some [some 0x00, none, none, none] := by
  decide

/-! ## The reducer (V2, V5, V11 to V13, V27) -/

theorem test_reduce_V12 : reduce 0x00 0x61 = 0x20 ∧ reduce 0x20 0x62 = 0xC9 ∧ reduce 0xC9 0x63 = 0x5F := by decide

/-- V11: the eight steps for 'a'. -/
theorem test_shiftSteps_V11 : [1, 2, 3, 4, 5, 6, 7, 8].map (fun n => shiftSteps n (0x61 : Byte))
    = [0xC2, 0x83, 0x01, 0x02, 0x04, 0x08, 0x10, 0x20] := by decide

theorem test_reduce_V13 : reduce 0xFF 0x00 = 0xF3 ∧ reduce 0x00 0xFF = 0xF3 ∧ reduce 0x5F 0x5F = 0x00 ∧
    reduce 0x12 0x34 = 0xF2 := by decide

/-- V27: "123456789", "hello" and [FF, FF]. -/
theorem test_crc_V27 : crc [0x31, 0x32, 0x33, 0x34, 0x35, 0x36, 0x37, 0x38, 0x39] = 0xF4 ∧
    crc [0x68, 0x65, 0x6C, 0x6C, 0x6F] = 0x92 ∧ crc [0xFF, 0xFF] = 0x24 := by decide +kernel

/-- Spot values of R82's table. -/
theorem test_tableReduce_spots : tableReduce 0x00 0xFF = some 0xF3 ∧ tableReduce 0x00 0x61 = some 0x20 ∧
    tableReduce 0x00 0x31 = some 0x97 ∧ tableReduce 0x12 0x34 = some 0xF2 := by decide

/-! ## Commands, one step each -/

/-- V1. -/
theorem test_new_V1 : after (bank free4) 0x1000 = some ([some 0x00, none, none, none], [.ok], 0x3000) := by decide
/-- V23: a live slot. -/
theorem test_new_busy_V23 :
    after (bank [some 0x00, none, none, none]) 0x1000 = some ([some 0x00, none, none, none], [.err 0x0B], 0x30B1) := by
  decide
/-- V2, second byte. -/
theorem test_upd_V2 :
    after (bank [some 0x20, none, none, none]) 0x2062 = some ([some 0xC9, none, none, none], [.ok], 0x3000) := by decide
/-- V23. -/
theorem test_upd_free_V23 : after (bank free4) 0x2061 = some (free4, [.err 0x0A], 0x30A1) := by decide
/-- V17. -/
theorem test_rejText_V17 :
    after (bank [some 0x97, none, none, none]) 0x3001 = some ([some 0x97, none, none, none], [.err 0x01], 0x3000) := by
  decide
/-- V23: the range comes before anything else. -/
theorem test_rejText_range_V23 : after (bank free4) 0x3501 = some (free4, [.err 0x09], 0x3091) := by decide
/-- V18. -/
theorem test_rejOther_V18 :
    after (bank [some 0x20, none, none, none]) 0x3002 = some ([some 0x20, none, none, none], [.err 0x02], 0x3000) := by
  decide
/-- V3. -/
theorem test_dig_V3 :
    after (bank [some 0x5F, none, none, none]) 0x4000 = some ([some 0x5F, none, none, none], [.data 0x005F], 0x3000) := by
  decide
/-- V24. -/
theorem test_dig_free_V24 : after (bank free4) 0x4100 = some (free4, [.err 0x0A], 0x30A1) := by decide
/-- V21. -/
theorem test_hexData_V21 : [0x00, 0x07, 0x0A, 0x5F, 0xA1, 0xC0, 0xF3, 0xFF].map hexData
    = [0x3030, 0x3037, 0x3061, 0x3566, 0x6131, 0x6330, 0x6633, 0x6666] := by decide
/-- V4. -/
theorem test_hex_V4 :
    after (bank [some 0x5F, none, none, none]) 0x5000 = some ([some 0x5F, none, none, none], [.data 0x3566], 0x3000) := by
  decide
/-- V8. -/
theorem test_cpy_V8 :
    after (bank [some 0x20, none, none, none]) 0x6100 = some ([some 0x20, some 0x20, none, none], [.ok], 0x3000) := by
  decide
/-- V23: COPY_SAME_SLOT before SLOT_NOT_LIVE and before SLOT_BUSY; a source out of range. -/
theorem test_cpy_faults_V23 :
    after (bank free4) 0x6330 = some (free4, [.err 0x0C], 0x30C1) ∧
    after (bank [none, none, none, some 0x00]) 0x6330
      = some ([none, none, none, some 0x00], [.err 0x0C], 0x30C1) ∧
    after (bank [some 0x00, none, none, none]) 0x6150
      = some ([some 0x00, none, none, none], [.err 0x09], 0x3091) := by decide
/-- V24. -/
theorem test_rel_V24 : after (bank [none, some 0x00, none, none]) 0x7100 = some (free4, [.ok], 0x3000) := by decide
/-- V23. -/
theorem test_rel_free_V23 : after (bank free4) 0x7000 = some (free4, [.err 0x0A], 0x30A1) := by decide
/-- V20. -/
theorem test_attrDsz_V20 :
    after (bank [none, some 0x00, none, none]) 0x8100 = some ([none, some 0x00, none, none], [.data 0x0001], 0x3000) := by
  decide
/-- V20. -/
theorem test_attrBsz_V20 :
    after (bank [none, some 0x00, none, none]) 0x8101 = some ([none, some 0x00, none, none], [.data 0x0001], 0x3000) := by
  decide

/-! ## The frame, STATUS and reset -/

/-- V22: STATUS after an illegal word from reset. -/
theorem test_illegal_status_V22 : after (bank free4) 0x6101 = some (free4, [.err 0x08], 0x3081) := by decide
/-- V24: a faulted block refuses NEW with the first fault's code. -/
theorem test_faulted_refuses_V24 : after (faultedBank free4) 0x1100 = some (free4, [.err 0x0A], 0x30A1) := by decide
/-- V26: reset clears the fault. -/
theorem test_reset_V26 : (next (step (faultedBank [some 0x00, none, none, none] [.reset]))).map
    (fun t => (t.slots, t.responses, statusWord t)) = some (free4, [], 0x3000) := by decide
/-- V23, last line: sixteen slots. -/
theorem test_sixteen_slots_V23 :
    ((next (step (offerFirst 0x1F00 (State.resetWith 16)))).map fun t => (t.slots[15]?, t.responses, statusWord t))
      = some (some (some 0x00), [.ok], 0xF000) := by decide
/-- A STATUS read while faulted (R29). -/
theorem test_readStatus_faulted : (next (step (faultedBank free4 [.readStatus]))).map
    (fun t => (t.responses, t.statusReads)) = some ([], [0x30A1]) := by decide

/-! ## Assembler lines (R70, R71) -/

theorem test_assemble_upd :
    Assembler.assembleLine ['u', 'p', 'd', ' ', 's', '1', '0', ',', '\'', ';', '\'', ' ', ';', 'x'] = some [.upd 10 0x3B] := by
  decide
theorem test_assemble_update_string :
    Assembler.assembleLine ['U', 'P', 'D', 'A', 'T', 'E', ' ', 's', '2', ',', ' ', '"', 'a', '\\', 'x', 'F', 'f', '"']
      = some [.upd 2 0x61, .upd 2 0xFF] := by decide
theorem test_assemble_update_empty :
    Assembler.assembleLine ['U', 'P', 'D', 'A', 'T', 'E', ' ', 's', '2', ',', ' ', '"', '"'] = some [] := by decide
theorem test_assemble_decimal_and_range :
    Assembler.assembleLine ['U', 'P', 'D', ' ', 's', '0', ',', ' ', '2', '5', '5'] = some [.upd 0 0xFF] ∧
    Assembler.assembleLine ['U', 'P', 'D', ' ', 's', '0', ',', ' ', '2', '5', '6'] = none ∧
    Assembler.assembleLine ['N', 'E', 'W', ' ', 's', '1', '6'] = none := by decide

/-! ## Witnesses: the hypotheses of the statements can be met -/

/-- A bank of two slots, one live and one free: the smallest legal size. -/
def pair (pending : List PortEvent := []) : State := bank [some 0x20, none] pending

theorem pair_inv (pending : List PortEvent) : (pair pending).Inv :=
  ⟨by simp [pair, bank, State.numInst, Config.minInst, Config.maxInst], by simp [pair, bank, legalFcodes],
    by simp [pair, bank]⟩

theorem faultedPair_inv (pending : List PortEvent) : (faultedBank [some 0x20, none] pending).Inv :=
  ⟨by simp [faultedBank, bank, State.numInst, Config.minInst, Config.maxInst],
    by simp [faultedBank, bank, legalFcodes], by simp [faultedBank, bank]⟩

theorem witness_StepRunsDecodedCommand :
    (pair [.command 0x2061]).pending = .command 0x2061 :: [] ∧ (pair [.command 0x2061]).faulted = false ∧
    decode 0x2061 = .ok (.upd 0 0x61) := by decide

/-- The frame's three cases, and each check at the edge of the bank of two slots. -/
theorem witness_CommandFrameTakesFirstOutcome :
    ((faultedBank [none, none] [.command 0x0000]).pending = .command 0x0000 :: [] ∧
      (faultedBank [none, none] [.command 0x0000]).faulted = true) ∧
    ((pair [.command 0x0000]).faulted = false ∧ decode 0x0000 = .error .reservedOpcode) ∧
    ((pair [.command 0x1100]).faulted = false ∧ decode 0x1100 = .ok (.new 1)) ∧
    (2 ∈ slotOperands (.cpy 1 2) ∧ (pair []).numInst ≤ 2) ∧
    ((∀ a ∈ slotOperands (.cpy 1 1), a < (pair []).numInst) ∧ Instr.cpy 1 1 = .cpy 1 1) ∧
    (engineSlot (.dig 1) = some 1 ∧ (pair []).FreeAt 1) ∧
    (receivingSlot (.new 0) = some 0 ∧ (pair []).LiveAt 0 0x20) ∧
    (engineSlot (.cpy 0 1) = some 1 ∧ receivingSlot (.cpy 0 1) = some 0 ∧
      (bank [some 0x01, some 0x02]).LiveAt 1 0x02 ∧ (bank [some 0x01, some 0x02]).LiveAt 0 0x01) ∧
    (engineSlot (.rejText 0) = some 0 ∧ engineSlot (.rejOther 0) = some 0) ∧
    ((bank free4).FreeAt 3 ∧ (bank free4).numInst = 4) := by decide

/-- A word that names a free slot faults. -/
theorem witness_RaiseFaultWritesStatusOnly :
    (pair [.command 0x4100]).pending = .command 0x4100 :: [] ∧ (pair [.command 0x4100]).faulted = false ∧
    ∃ t, step (pair [.command 0x4100]) = .next t ∧ t.faulted = true := ⟨by decide, by decide, _, rfl, by decide⟩

theorem witness_OnlyListedErrorCodesAreReturned :
    (faultedBank [some 0x20, none] [.command 0x1000]).Inv ∧
    ∃ t, step (faultedBank [some 0x20, none] [.command 0x1000]) = .next t ∧ t.responses = [.err 0x0A] :=
  ⟨faultedPair_inv _, _, rfl, by decide⟩

theorem witness_FaultedStateRefusesCommands :
    ((faultedBank [none] [.command 0x1000]).pending = .command 0x1000 :: [] ∧
      (faultedBank [none] [.command 0x1000]).faulted = true) ∧
    (∃ t, step (faultedBank [none] [.reset]) = .next t ∧ t.faulted = false) ∧
    (faultedBank [none] [.readStatus]).pending = .readStatus :: [] := ⟨by decide, ⟨_, rfl, rfl⟩, by decide⟩

/-- All three ways, and a command waiting behind a fault. -/
theorem witness_CommandEndsInOneOfThreeWays :
    (pair [.command 0x4000]).faulted = false ∧ decode 0x4000 = .ok (.dig 0) ∧
    (pair [.command 0x3001]).faulted = false ∧ decode 0x3001 = .ok (.rejText 0) ∧
    (pair [.command 0x4100, .command 0x4000]).pending = .command 0x4100 :: ([0x4000].map .command ++ []) ∧
    decode 0x4100 = .ok (.dig 1) ∧ (pair []).FreeAt 1 := by decide

theorem witness_InputTypeErrorWritesNoState : (pair []).LiveAt 0 0x20 := by decide

/-- A fault and a reset do change the sticky fields. -/
theorem witness_StickyStatusHasTwoWriters :
    (∃ t, step (pair [.command 0x4100]) = .next t ∧ t.faulted ≠ (pair [.command 0x4100]).faulted) ∧
    (∃ t, step (faultedBank [none] [.reset]) = .next t ∧ t.fcode ≠ (faultedBank [none] [.reset]).fcode) :=
  ⟨⟨_, rfl, by decide⟩, ⟨_, rfl, by decide⟩⟩

theorem witness_CommandTouchesPortByOneResponse : ∃ t, exec (.dig 0) (pair []) = .next t := ⟨_, rfl⟩

theorem witness_IdleBlockHoldsState : (pair []).pending = [] := by decide

theorem witness_StatusReadChangesNothing : (pair [.readStatus]).pending = .readStatus :: [] := by decide

/-- Both ends of the range of bank sizes, faulted and not. -/
theorem witness_StatusWordFields :
    (pair []).Inv ∧ (faultedBank [some 0x20, none] []).Inv ∧ (State.resetWith 16).Inv :=
  ⟨pair_inv _, faultedPair_inv _, by decide, by decide, by decide⟩

theorem witness_ResetFreesBankAndClearsFault :
    (faultedBank [some 0x20, none] [.reset]).pending = .reset :: [] ∧
    ∃ t, step (faultedBank [some 0x20, none] [.reset]) = .next t ∧ t.faulted = false := ⟨by decide, _, rfl, rfl⟩

theorem witness_StatusAfterReset :
    (pair [.reset]).Inv ∧ (pair [.reset]).pending = .reset :: [] ∧ 1 < (pair [.reset]).numInst :=
  ⟨pair_inv _, by decide, by decide⟩

theorem witness_ResetStateHoldsResetValues : 2 ≤ 16 ∧ 16 ≤ 16 ∧ 15 < 16 := by decide

theorem witness_ResetStateMeetsInvariant : 2 ≤ 2 ∧ 2 ≤ 16 := by decide

theorem witness_StepKeepsInvariant :
    (pair [.command 0x4100]).Inv ∧ ∃ t, step (pair [.command 0x4100]) = .next t ∧ t.fcode = 0xA :=
  ⟨pair_inv _, _, rfl, by decide⟩

theorem witness_DecodeMatchesOpcodeMap :
    (Instr.cpy 0 0).row ∈ opcodeTable ∧ 0x6F00 &&& (Instr.cpy 0 0).row.mask = (Instr.cpy 0 0).row.pattern := by decide

theorem witness_ReservedOpcodesAreIllegal :
    (pair [.command 0x0FFF]).pending = .command 0x0FFF :: [] ∧ (pair [.command 0x0FFF]).faulted = false ∧
    (0x0FFF : CommandWord).extractLsb' 12 4 = 0x0 ∧ 0x9 ≤ (0x9000 : CommandWord).extractLsb' 12 4 ∧
    0x9 ≤ (0xF123 : CommandWord).extractLsb' 12 4 := by decide

theorem witness_ReservedFieldValuesAreIllegal :
    (pair [.command 0x7001]).pending = .command 0x7001 :: [] ∧ (pair [.command 0x7001]).faulted = false ∧
    ((0x7001 : CommandWord).extractLsb' 12 4 ∈ [(0x1 : Nibble), 0x4, 0x5, 0x7] ∧
      (0x7001 : CommandWord).extractLsb' 0 8 ≠ 0x00) ∧
    ((0x6108 : CommandWord).extractLsb' 12 4 = 0x6 ∧ (0x6108 : CommandWord).extractLsb' 0 4 ≠ 0x0) ∧
    ((0x3003 : CommandWord).extractLsb' 12 4 = 0x3 ∧
      (0x3003 : CommandWord).extractLsb' 0 8 ∉ [(0x01 : Byte), 0x02]) ∧
    ((0x8002 : CommandWord).extractLsb' 12 4 = 0x8 ∧
      (0x8002 : CommandWord).extractLsb' 0 8 ∉ [(0x00 : Byte), 0x01]) ∧
    (0x2FFF : CommandWord).extractLsb' 12 4 = 0x2 := by decide

theorem witness_DecodeOfEncode : (Instr.cpy 15 14).wellFormed = true ∧ (Instr.upd 0 0xFF).wellFormed = true := by
  decide

theorem witness_EncodeOfDecode : decode 0x6FE0 = .ok (.cpy 15 14) := by decide

theorem witness_AssemblerLinesGiveTheirWords : 15 < 16 ∧ 0 < 16 := by decide

theorem witness_PseudoInstructionsExpand :
    ∀ c ∈ [' ', '~', ';'], Assembler.isPrintable c = true ∧ c ≠ '"' ∧ c ≠ '\\' := by
  simp [Assembler.isPrintable]

/-- Each situation of a one-slot command: outside at the first index past the bank, free, live; the same witness serves
NEW, UPD, REJ, DIG, HEX, ATTR and REL. -/
theorem witness_NewConstructsEngine :
    (pair []).numInst ≤ 2 ∧ (pair []).LiveAt 0 0x20 ∧ (pair []).FreeAt 1 := by decide
theorem witness_UpdFoldsOneByte :
    (pair []).numInst ≤ 2 ∧ (pair []).LiveAt 0 0x20 ∧ (pair []).FreeAt 1 := by decide
theorem witness_RejReportsInputTypeError :
    (pair []).numInst ≤ 2 ∧ (pair []).FreeAt 1 ∧ (pair []).LiveAt 0 0x20 ∧
    ∃ t, exec (.rejText 0) (pair []) = .next t := ⟨by decide, by decide, by decide, _, rfl⟩
theorem witness_DigReturnsAccumulator :
    (pair []).numInst ≤ 2 ∧ (pair []).FreeAt 1 ∧ (pair []).LiveAt 0 0x20 ∧
    (bank [some 0x5F, none]).LiveAt 0 (crc [0x61, 0x62, 0x63]) := by decide +kernel
theorem witness_HexReturnsTwoCharacters :
    (pair []).numInst ≤ 2 ∧ (pair []).FreeAt 1 ∧ (pair []).LiveAt 0 0x20 := by decide
theorem witness_HexCharacterTable : (0x9 : Nibble) ≤ 0x9 := by decide
theorem witness_HexSpellsTheDigest : (bank [some 0xFF, none]).LiveAt 0 0xFF := by decide
theorem witness_AttrDszReturnsOne :
    (pair []).numInst ≤ 2 ∧ (pair []).FreeAt 1 ∧ (pair []).LiveAt 0 0x20 := by decide
theorem witness_AttrBszReturnsOne :
    (pair []).numInst ≤ 2 ∧ (pair []).FreeAt 1 ∧ (pair []).LiveAt 0 0x20 := by decide

/-- CPY: both range cases, equal slots, a free source, a live destination, and the copy. -/
theorem witness_CpyClonesAccumulator :
    (pair []).numInst ≤ 2 ∧ 1 < (pair []).numInst ∧ (pair []).FreeAt 1 ∧ (0 : Nat) ≠ 1 ∧
    ((bank [some 0x01, some 0x02]).LiveAt 1 0x02 ∧ (bank [some 0x01, some 0x02]).LiveAt 0 0x01) ∧
    ((pair []).LiveAt 0 0x20 ∧ ∃ t, exec (.cpy 1 0) (pair []) = .next t ∧ t.LiveAt 1 0x20) :=
  ⟨by decide, by decide, by decide, by decide, by decide, by decide, _, rfl, by decide⟩

/-- REL: the three situations, then a command on the freed slot and a copy into it. -/
theorem witness_RelFreesSlot :
    (pair []).numInst ≤ 2 ∧ (pair []).FreeAt 1 ∧ (pair []).LiveAt 0 0x20 ∧
    ∃ t, exec (.rel 0) (bank [some 0x20, some 0x01]) = .next t ∧ engineSlot (.dig 0) = some 0 ∧
      (∀ k ∈ slotOperands (.dig 0), k < t.numInst) ∧ t.LiveAt 1 0x01 :=
  ⟨by decide, by decide, by decide, _, rfl, by decide, by decide, by decide⟩

theorem witness_SlotsDoNotAlias :
    ∃ t, exec (.upd 0 0x61) (pair []) = .next t ∧ writtenSlot (.upd 0 0x61) ≠ some 1 ∧
      writtenSlot (.dig 0) = none := ⟨_, rfl, by decide, by decide⟩

/-- Both cases: a success and a fault. -/
theorem witness_CommandFaultsPrecisely :
    (∃ t, exec (.upd 0 0x61) (pair []) = .next t ∧ t.faulted = false) ∧
    ∃ t, exec (.upd 1 0x61) (pair []) = .next t ∧ t.faulted = true := ⟨⟨_, rfl, rfl⟩, ⟨_, rfl, rfl⟩⟩

theorem witness_RepeatedCommands :
    (pair []).LiveAt 0 0x20 ∧ (pair []).FreeAt 1 ∧ (∃ t, exec (.upd 0 0xFF) (pair []) = .next t) ∧
    (∃ t, exec (.rel 0) (pair []) = .next t) ∧ (∃ t, exec (.cpy 1 0) (pair []) = .next t) ∧
    (∃ t, exec (.new 1) (pair []) = .next t) ∧
    (pair [.readStatus, .readStatus]).pending = .readStatus :: .readStatus :: [] :=
  ⟨by decide, by decide, ⟨_, rfl⟩, ⟨_, rfl⟩, ⟨_, rfl⟩, ⟨_, rfl⟩, by decide⟩

theorem witness_ReadAfterWriteIsExact : (pair []).LiveAt 0 0x20 ∧ (pair []).FreeAt 1 := by decide

theorem witness_CloneIsEqualThenIndependent :
    ∃ t, exec (.cpy 1 0) (pair []) = .next t ∧ t.faulted = false ∧
      (∃ u, exec (.upd 1 0x31) t = .next u ∧ writtenSlot (.upd 1 0x31) = some 1) ∧
      ∃ u, exec (.rel 0) t = .next u ∧ writtenSlot (.rel 0) = some 0 :=
  ⟨_, rfl, rfl, ⟨_, rfl, by decide⟩, ⟨_, rfl, by decide⟩⟩

theorem witness_UpdateFoldsByteSequence :
    let s := pair [.command 0x2062, .command 0x2063, .readStatus]
    s.faulted = false ∧ s.LiveAt 0 0x20 ∧
    s.pending = (updateCommands 0 [0x62, 0x63]).map (fun i => .command (encode i)) ++ [.readStatus] := by decide

theorem witness_CommandKeepsHistories :
    Tracks [some [0x61], none] (pair []) ∧ ∃ t, exec (.upd 0 0x62) (pair []) = .next t ∧ t.faulted = false := by
  refine ⟨?_, _, rfl, rfl⟩
  show (pair []).slots = _
  decide

theorem witness_RunFromResetTracksHistories :
    (∀ i ∈ [Instr.new 1, .upd 1 0x61, .cpy 0 1], i.wellFormed = true) ∧
    ∃ t, runSteps 3 (send [.new 1, .upd 1 0x61, .cpy 0 1] (State.resetWith 2)) = some t ∧ t.faulted = false ∧
      ([Instr.new 1, .upd 1 0x61, .cpy 0 1].foldl histAfter [none, none])[0]? = some (some [0x61]) ∧
      ([Instr.new 1, .upd 1 0x61, .cpy 0 1].foldl histAfter [none, none])[1]? = some (some [0x61]) :=
  ⟨by decide, _, rfl, rfl, by decide, by decide⟩

theorem witness_HostSessionsRefineSource :
    Tracks [some [0x61], none] (pair []) ∧ (pair []).numInst ≤ 16 ∧ (pair []).faulted = false ∧
    (pair []).pending = [] ∧
    SessionAllowed [some [0x61], none]
      [.copy 1 0, .update 0 (.bytes [0x62, 0x63]), .update 1 .text, .update 1 .other, .digest 0, .hexdigest 1,
        .digestSize 0, .blockSize 1, .drop 0, .new 0] := by
  refine ⟨?_, by decide, by decide, by decide, ?_⟩
  · show (pair []).slots = _
    decide
  · simp [SessionAllowed, SourceCall.Allowed, SourceCall.after, consumed]

theorem witness_BlocksWithoutHiddenState :
    SameBlock (pair [.command 0x4000]) { pair [.command 0x4000] with responses := [.ok], statusReads := [0x1000] } ∧
    ∃ s', runSteps 1 (pair [.command 0x4000]) = some s' := ⟨⟨rfl, rfl, rfl, rfl⟩, _, rfl⟩

/-- A host that has sent nothing yet, and one in the middle of other traffic. -/
theorem witness_OneAgentClassAndOneMode :
    (pair [.command 0x2062]).pending = .command 0x2062 :: [] ∧
    ({ pair [.command 0x2062, .reset, .readStatus] with responses := [.err 0x01], statusReads := [0x1000] } :
      State).pending = .command 0x2062 :: [.reset, .readStatus] ∧
    (pair [.command 0x2062]).slots =
      ({ pair [.command 0x2062, .reset, .readStatus] with responses := [.err 0x01], statusReads := [0x1000] } :
        State).slots := by decide

end Sys2Proof.Tests
end

section
/-! SUPPORT. Proofs of the statements about the block's state (10_state.md): the fields of the STATUS word, the two writers
of the sticky fields, the frame of the instance file, the reset values. -/

namespace Sys2Proof.Machine

/-! ## The fields of the STATUS word (R28) -/

theorem statusWord_bits_3_1 (s : State) : (statusWord s).extractLsb' 1 3 = 0 := by
  ext i hi
  interval_cases i <;> simp [statusWord]

theorem statusWord_bits_11_8 (s : State) : (statusWord s).extractLsb' 8 4 = 0 := by
  ext i hi
  interval_cases i <;> simp [statusWord]

theorem statusWord_ninstM1 (s : State) : (statusWord s).extractLsb' 12 4 = ninstM1 s := by
  ext i hi
  interval_cases i <;> simp [statusWord]

/-- NINST_M1 loses nothing in a bank of at most 16 slots (R9). -/
theorem ninstM1_toNat {s : State} (h : s.numInst ≤ 16) : (ninstM1 s).toNat = s.numInst - 1 := by
  rw [ninstM1, BitVec.toNat_ofNat]
  omega

theorem resetWith_freeAt {n i : Nat} (h : i < n) : (State.resetWith n).FreeAt i := by
  simp [State.FreeAt, h]

/-! ## The statements -/

/-- Settles O17: every slot of the reset bank is free, and the STATUS fields are read off the assembled word. -/
theorem resetStateHoldsResetValues : Obligations.ResetStateHoldsResetValues := by
  intro n _ hn
  have hsize : (State.resetWith n).numInst = n := resetWith_numInst n
  refine ⟨fun i hi => resetWith_freeAt hi, hsize, rfl, rfl, statusWord_bits_3_1 _, statusWord_bits_11_8 _, ?_⟩
  rw [statusWord_ninstM1, ninstM1_toNat (hsize.trans_le hn), hsize]

/-- Settles O14: the step is the side-band read itself, which extends the record of reads and nothing else. -/
theorem statusReadChangesNothing : Obligations.StatusReadChangesNothing :=
  fun _ _ hp => step_readStatus hp

/-- Settles O48: a command that faults writes no slot, and any other writes at most the slot named by `writtenSlot`. -/
theorem slotsDoNotAlias : Obligations.SlotsDoNotAlias := by
  intro i s t h
  obtain ⟨f, -, -, e⟩ | ⟨r, slots, e, -, -, -, hnone, hother⟩ := exec_cases i s
  · rw [h] at e
    cases e
    exact ⟨fun _ _ => rfl, fun _ => rfl⟩
  · rw [h] at e
    cases e
    exact ⟨hother, hnone⟩

/-- Settles O9: of everything a step can do, only a reset and the raising of a fatal fault write FAULTED or FCODE. -/
theorem stickyStatusHasTwoWriters : Obligations.StickyStatusHasTwoWriters := by
  refine ⟨?_, fun c s => ⟨raiseInputTypeError_faulted s c, raiseInputTypeError_fcode s c⟩⟩
  intro s t h hchange
  have kept (hf : t.faulted = s.faulted) (hc : t.fcode = s.fcode) : False :=
    hchange.elim (absurd hf) (absurd hc)
  obtain ⟨-, rfl⟩ | ⟨rest, -, rfl⟩ | ⟨rest, hp, rfl⟩ | ⟨w, rest, hp, hcommand⟩ := step_cases h
  · exact (kept rfl rfl).elim
  · exact (kept rfl rfl).elim
  · exact .inl ⟨rest, hp, rfl, rfl⟩
  · obtain ⟨-, rfl⟩ | ⟨-, f, rfl⟩ | ⟨-, i, r, slots, -, -, rfl, -⟩ := hcommand
    · exact (kept rfl rfl).elim
    · exact .inr ⟨w, rest, f, hp, rfl⟩
    · exact (kept rfl rfl).elim

end Sys2Proof.Machine
end

section
/-! SUPPORT. Proof of the statement about repeated commands (20_memory.md R48): what a slot holds after a write to it or to
another slot, what a command that does not fault does, and what the same command then answers. -/

namespace Sys2Proof.Machine

section Repeat
variable {s : State} {a d i j : Nat} {acc v : Byte}

/-! ## A slot after a write -/

theorem writeAcc_liveAt_same (h : i < s.numInst) : (writeAcc i v s).LiveAt i v :=
  List.getElem?_set_self h

theorem writeAcc_liveAt_other (hne : i ≠ j) (h : s.LiveAt j acc) : (writeAcc i v s).LiveAt j acc :=
  (List.getElem?_set_ne hne).trans h

theorem freeSlot_freeAt_same (h : i < s.numInst) : (freeSlot i s).FreeAt i :=
  List.getElem?_set_self h

/-! ## The commands that do not fault (R101, R103, R135, R140) -/

theorem exec_new_free (h : s.FreeAt a) : exec (.new a) s = .next (respond .ok (writeAcc a Config.init s)) :=
  withFree_free _ h

theorem exec_new_live (h : s.LiveAt a acc) : exec (.new a) s = .next (raiseFault .slotBusy s) :=
  withFree_live _ h

theorem exec_upd_live (imm : Byte) (h : s.LiveAt a acc) :
    exec (.upd a imm) s = .next (respond .ok (writeAcc a (reduce acc imm) s)) :=
  withLive_live _ h

theorem exec_rel_live (h : s.LiveAt a acc) : exec (.rel a) s = .next (respond .ok (freeSlot a s)) :=
  withLive_live _ h

theorem exec_rel_free (h : s.FreeAt a) : exec (.rel a) s = .next (raiseFault .slotNotLive s) :=
  withLive_free _ h

theorem exec_cpy_copies (hs : s.LiveAt a acc) (hd : s.FreeAt d) :
    exec (.cpy d a) s = .next (respond .ok (writeAcc d acc s)) :=
  execCpy_copies hs hd

/-! ## The same command again (R48) -/

/-- A command that only answers from its slot's accumulator answers the same when repeated, since a response returned
before is not part of the instance file. -/
theorem exec_answers_twice {c : Instr} {answer : Byte → Response}
    (hc : ∀ s, exec c s = withLive a (fun acc => respond (answer acc) s) s) (h : s.LiveAt a acc) :
    ∃ r, exec c s = .next { s with responses := s.responses ++ [r] } ∧
      exec c { s with responses := s.responses ++ [r] } = .next { s with responses := s.responses ++ [r, r] } := by
  have again : (respond (answer acc) s).LiveAt a acc := h
  refine ⟨answer acc, (hc s).trans (withLive_live _ h), (hc _).trans ((withLive_live _ again).trans ?_)⟩
  simp [respond]

theorem exec_query_or_rej_twice (h : s.LiveAt a acc) :
    ∀ c ∈ [Instr.dig a, .hex a, .attrDsz a, .attrBsz a, .rejText a, .rejOther a], ∃ r,
      exec c s = .next { s with responses := s.responses ++ [r] } ∧
      exec c { s with responses := s.responses ++ [r] } = .next { s with responses := s.responses ++ [r, r] } := by
  intro c hc
  simp only [List.mem_cons, List.not_mem_nil, or_false] at hc
  obtain rfl | rfl | rfl | rfl | rfl | rfl := hc
  · exact exec_answers_twice (answer := fun acc => .data (acc.setWidth 16)) (fun _ => rfl) h
  · exact exec_answers_twice (answer := fun acc => .data (hexData acc)) (fun _ => rfl) h
  · exact exec_answers_twice (answer := fun _ => .data Config.digestSize) (fun _ => rfl) h
  · exact exec_answers_twice (answer := fun _ => .data Config.blockSize) (fun _ => rfl) h
  · exact exec_answers_twice (answer := fun _ => .err InputTypeCause.text.code) (fun _ => rfl) h
  · exact exec_answers_twice (answer := fun _ => .err InputTypeCause.other.code) (fun _ => rfl) h

variable {t : State}

/-- The first UPD leaves the slot live with the byte folded once, so the second folds it again. -/
theorem exec_upd_twice {imm : Byte} (h : s.LiveAt a acc) (ht : exec (.upd a imm) s = .next t) :
    ∃ u, exec (.upd a imm) t = .next u ∧ u.LiveAt a (reduce (reduce acc imm) imm) := by
  obtain rfl : respond .ok (writeAcc a (reduce acc imm) s) = t := by simpa [exec_upd_live imm h] using ht
  have once : (respond .ok (writeAcc a (reduce acc imm) s)).LiveAt a (reduce acc imm) := writeAcc_liveAt_same h.lt
  exact ⟨_, exec_upd_live imm once, writeAcc_liveAt_same once.lt⟩

theorem exec_rel_twice (h : s.LiveAt a acc) (ht : exec (.rel a) s = .next t) :
    exec (.rel a) t = .next (raiseFault .slotNotLive t) := by
  obtain rfl : respond .ok (freeSlot a s) = t := by simpa [exec_rel_live h] using ht
  exact exec_rel_free (freeSlot_freeAt_same h.lt)

/-- The source is live in both states, for the copy wrote another slot; so it is the destination that fails. -/
theorem exec_cpy_twice (hs : s.LiveAt a acc) (hd : s.FreeAt d) (ht : exec (.cpy d a) s = .next t) :
    exec (.cpy d a) t = .next (raiseFault .slotBusy t) := by
  obtain rfl : respond .ok (writeAcc d acc s) = t := by simpa [exec_cpy_copies hs hd] using ht
  have hne : d ≠ a := fun e => hs.not_free (e ▸ hd)
  exact execCpy_dest_live hne (writeAcc_liveAt_other hne hs) (writeAcc_liveAt_same hd.lt)

theorem exec_new_twice (h : s.FreeAt a) (ht : exec (.new a) s = .next t) :
    exec (.new a) t = .next (raiseFault .slotBusy t) := by
  obtain rfl : respond .ok (writeAcc a Config.init s) = t := by simpa [exec_new_free h] using ht
  exact exec_new_live (writeAcc_liveAt_same h.lt)

/-- The STATUS word is made of the block's own fields (R28): the host's stream and its reads do not enter it. -/
theorem statusWord_of_traffic (s : State) (rest : List PortEvent) (reads : List DataWord) :
    statusWord { s with pending := rest, statusReads := reads } = statusWord s := rfl

theorem runSteps_readStatus_twice {rest : List PortEvent} (h : s.pending = .readStatus :: .readStatus :: rest) :
    runSteps 2 s = some { s with
      pending := rest, statusReads := s.statusReads ++ [statusWord s, statusWord s] } := by
  rw [runSteps_succ (step_readStatus h), runSteps_succ (step_readStatus rfl), runSteps_zero]
  simp [readStatus, statusWord_of_traffic]

end Repeat

/-! ## The statement -/

/-- Settles O50: each command's first run is followed exactly, and the slot it leaves decides what the second answers. -/
theorem repeatedCommands : Obligations.RepeatedCommands :=
  ⟨fun _ _ _ h => ⟨exec_query_or_rej_twice h, fun _ _ => exec_upd_twice h, fun _ => exec_rel_twice h,
      fun _ _ => exec_cpy_twice h⟩,
    fun _ _ _ => exec_new_twice, fun _ _ => runSteps_readStatus_twice⟩

end Sys2Proof.Machine
end

section
/-! SUPPORT. Proofs of the statements about words that are no command (30_encoding.md R65, R66): for each reserved value, the
arm of the decoder that rejects it. -/

namespace Sys2Proof

section Reserved
variable {w : CommandWord}

/-! ## Reserved opcodes (R65) -/

/-- The decoder's last arm is reached by every opcode that the other eight do not name. -/
theorem decode_reservedOpcode (h : opField w = 0x0 ∨ 0x9 ≤ opField w) : decode w = .error .reservedOpcode := by
  have hop : (opField w).toNat = 0 ∨ 9 ≤ (opField w).toNat :=
    h.imp (congrArg BitVec.toNat) BitVec.le_def.mp
  unfold decode
  split
  case h_9 => rfl
  all_goals omega

/-! ## The arms of the opcodes that are used (R68) -/

/-- The opcodes of format S are those whose arm asks for a zero low byte and nothing else (R62). -/
theorem decode_formatS (h : opField w ∈ [(0x1 : Nibble), 0x4, 0x5, 0x7]) :
    ∃ i, decode w = whenImm w 0x00 i := by
  simp only [List.mem_cons, List.not_mem_nil, or_false] at h
  obtain h | h | h | h := h
  · exact ⟨.new (slotField w).toNat, by simp [decode, h]⟩
  · exact ⟨.dig (slotField w).toNat, by simp [decode, h]⟩
  · exact ⟨.hex (slotField w).toNat, by simp [decode, h]⟩
  · exact ⟨.rel (slotField w).toNat, by simp [decode, h]⟩

theorem decode_upd (h : opField w = 0x2) : decode w = .ok (.upd (slotField w).toNat (immField w)) := by
  simp [decode, h]

theorem decode_rej (h : opField w = 0x3) :
    decode w = if immField w = 0x01 then .ok (.rejText (slotField w).toNat)
      else whenImm w 0x02 (.rejOther (slotField w).toNat) := by
  simp [decode, h]

theorem decode_cpy (h : opField w = 0x6) :
    decode w = if zeroField w = 0x0 then .ok (.cpy (slotField w).toNat (srcField w).toNat)
      else .error .reservedField := by
  simp [decode, h]

theorem decode_attr (h : opField w = 0x8) :
    decode w = if immField w = 0x00 then .ok (.attrDsz (slotField w).toNat)
      else whenImm w 0x01 (.attrBsz (slotField w).toNat) := by
  simp [decode, h]

/-! ## Reserved field values (R66) -/

theorem whenImm_reserved {k : Byte} {i : Instr} (h : immField w ≠ k) : whenImm w k i = .error .reservedField :=
  if_neg h

theorem decode_formatS_reserved (hop : opField w ∈ [(0x1 : Nibble), 0x4, 0x5, 0x7]) (himm : immField w ≠ 0x00) :
    decode w = .error .reservedField := by
  obtain ⟨i, hi⟩ := decode_formatS hop
  exact hi.trans (whenImm_reserved himm)

theorem decode_cpy_reserved (hop : opField w = 0x6) (hz : zeroField w ≠ 0x0) :
    decode w = .error .reservedField :=
  (decode_cpy hop).trans (if_neg hz)

theorem decode_rej_reserved (hop : opField w = 0x3) (himm : immField w ∉ [(0x01 : Byte), 0x02]) :
    decode w = .error .reservedField := by
  obtain ⟨htext, hother⟩ : immField w ≠ 0x01 ∧ immField w ≠ 0x02 := by simpa using himm
  rw [decode_rej hop, if_neg htext, whenImm_reserved hother]

theorem decode_attr_reserved (hop : opField w = 0x8) (himm : immField w ∉ [(0x00 : Byte), 0x01]) :
    decode w = .error .reservedField := by
  obtain ⟨hdsz, hbsz⟩ : immField w ≠ 0x00 ∧ immField w ≠ 0x01 := by simpa using himm
  rw [decode_attr hop, if_neg hdsz, whenImm_reserved hbsz]

end Reserved

namespace Machine

/-! ## The statements -/

/-- Settles O22: both sample words have a reserved opcode too, so the decoder's last arm answers every case. -/
theorem reservedOpcodesAreIllegal : Obligations.ReservedOpcodesAreIllegal := by
  intro s w rest hp hf h
  have hop : opField w = 0x0 ∨ 0x9 ≤ opField w := by
    obtain h | h | rfl | rfl := h
    · exact .inl h
    · exact .inr h
    · exact .inl (by decide)
    · exact .inr (by decide)
  have hd := decode_reservedOpcode hop
  exact ⟨hd, step_illegal hp hf hd⟩

/-- Settles O23: one rejecting arm of the decoder for each reserved field, and the arm of UPD rejects nothing. -/
theorem reservedFieldValuesAreIllegal : Obligations.ReservedFieldValuesAreIllegal := by
  refine ⟨fun s w rest hp hf h => ?_, fun w h => ⟨_, decode_upd h⟩⟩
  have hd : decode w = .error .reservedField := by
    obtain ⟨hop, h⟩ | ⟨hop, h⟩ | ⟨hop, h⟩ | ⟨hop, h⟩ := h
    · exact decode_formatS_reserved hop h
    · exact decode_cpy_reserved hop h
    · exact decode_rej_reserved hop h
    · exact decode_attr_reserved hop h
  exact ⟨hd, step_illegal hp hf hd⟩

end Machine

end Sys2Proof
end

section
/-! SUPPORT. Proofs of the statements about construction and update (41_construct_update.md): which words are NEW, UPD and
REJ, what each command does in the three situations of its slot operand, and a run of UPD commands. -/

namespace Sys2Proof

/-! ## The words of a command (30_encoding.md R64) -/

/-- An arm of formats S and K has tested all that the mask of its command's row keeps. -/
theorem row_matches_of_whenImm {w : CommandWord} {op : Nibble} {k : Byte} {i j : Instr}
    (hop : (opField w).toNat = op.toNat) (hrow : w &&& 0xF0FF = word op 0 k → j.row.Matches w)
    (h : whenImm w k j = .ok i) : i.row.Matches w := by
  obtain ⟨himm, rfl⟩ := whenImm_eq_ok.mp h
  exact hrow ((matches_opImm w op k).mpr ⟨BitVec.eq_of_toNat_eq hop, himm⟩)

/-- A word that decodes lies in the decoded command's row of the opcode map, whichever arm of the decoder answered. -/
theorem row_matches_of_decode {w : CommandWord} {i : Instr} (h : decode w = .ok i) : i.row.Matches w := by
  unfold decode at h
  split at h
  case h_1 hop => exact row_matches_of_whenImm (op := 0x1) hop id h
  case h_2 hop =>
    cases h
    exact (matches_op w 0x2).mpr (BitVec.eq_of_toNat_eq hop)
  case h_3 hop =>
    split at h
    case isTrue himm =>
      cases h
      exact (matches_opImm w 0x3 0x01).mpr ⟨BitVec.eq_of_toNat_eq hop, himm⟩
    case isFalse => exact row_matches_of_whenImm (op := 0x3) hop id h
  case h_4 hop => exact row_matches_of_whenImm (op := 0x4) hop id h
  case h_5 hop => exact row_matches_of_whenImm (op := 0x5) hop id h
  case h_6 hop =>
    split at h
    case isTrue hz =>
      cases h
      exact (matches_opZero w 0x6).mpr ⟨BitVec.eq_of_toNat_eq hop, hz⟩
    case isFalse => cases h
  case h_7 hop => exact row_matches_of_whenImm (op := 0x7) hop id h
  case h_8 hop =>
    split at h
    case isTrue himm =>
      cases h
      exact (matches_opImm w 0x8 0x00).mpr ⟨BitVec.eq_of_toNat_eq hop, himm⟩
    case isFalse => exact row_matches_of_whenImm (op := 0x8) hop id h
  case h_9 => cases h

theorem decode_new {w : CommandWord} (hop : opField w = 0x1) (himm : immField w = 0x00) :
    decode w = .ok (.new (slotField w).toNat) := by
  simp [decode, whenImm, hop, himm]

theorem decode_rejText {w : CommandWord} (hop : opField w = 0x3) (himm : immField w = 0x01) :
    decode w = .ok (.rejText (slotField w).toNat) := by
  rw [decode_rej hop, if_pos himm]

theorem decode_rejOther {w : CommandWord} (hop : opField w = 0x3) (himm : immField w = 0x02) :
    decode w = .ok (.rejOther (slotField w).toNat) := by
  rw [decode_rej hop, if_neg (by simp [himm]), whenImm, if_pos himm]

theorem decode_encode_upd {a : Nat} (imm : Byte) (h : a < 16) : decode (encode (.upd a imm)) = .ok (.upd a imm) := by
  rw [encode, decode_upd (opField_word ..), slotField_word, immField_word, BitVec.toNat_ofNat, Nat.mod_eq_of_lt h]

end Sys2Proof

namespace Sys2Proof.Machine

theorem selects_new : Selects 0x1000 0xF0FF fun w => .new (slotField w).toNat := fun w =>
  ⟨fun h => have ⟨hop, himm⟩ := (matches_opImm w 0x1 0x00).mp h; decode_new hop himm, row_matches_of_decode⟩

theorem selects_upd : Selects 0x2000 0xF000 fun w => .upd (slotField w).toNat (immField w) := fun w =>
  ⟨fun h => decode_upd ((matches_op w 0x2).mp h), row_matches_of_decode⟩

theorem selects_rejText : Selects 0x3001 0xF0FF fun w => .rejText (slotField w).toNat := fun w =>
  ⟨fun h => have ⟨hop, himm⟩ := (matches_opImm w 0x3 0x01).mp h; decode_rejText hop himm, row_matches_of_decode⟩

theorem selects_rejOther : Selects 0x3002 0xF0FF fun w => .rejOther (slotField w).toNat := fun w =>
  ⟨fun h => have ⟨hop, himm⟩ := (matches_opImm w 0x3 0x02).mp h; decode_rejOther hop himm, row_matches_of_decode⟩

section Commands
variable {s : State} {a : Nat} {acc : Byte}

/-! ## Steps and commands -/

/-- The third case of the frame (R157). -/
theorem step_command {w : CommandWord} {rest : List PortEvent} {i : Instr} (h : s.pending = .command w :: rest)
    (hf : s.faulted = false) (hd : decode w = .ok i) : step s = exec i { s with pending := rest } := by
  rw [step_event h]; simp [acceptEvent, acceptCommand, hf, hd]

theorem exec_dig_live (h : s.LiveAt a acc) : exec (.dig a) s = .next (respond (.data (acc.setWidth 16)) s) :=
  withLive_live _ h

theorem exec_rejText_live (h : s.LiveAt a acc) : exec (.rejText a) s = .next (raiseInputTypeError .text s) :=
  withLive_live _ h

theorem exec_rejOther_live (h : s.LiveAt a acc) : exec (.rejOther a) s = .next (raiseInputTypeError .other s) :=
  withLive_live _ h

/-- Either REJ on a live slot only returns its error. -/
theorem exec_rej_live {t : State} (h : s.LiveAt a acc)
    (ht : exec (.rejText a) s = .next t ∨ exec (.rejOther a) s = .next t) : ∃ c, t = raiseInputTypeError c s := by
  rw [exec_rejText_live h, exec_rejOther_live h] at ht
  obtain ht | ht := ht
  · cases ht; exact ⟨.text, rfl⟩
  · cases ht; exact ⟨.other, rfl⟩

/-- From reset, NEW s0 and then DIG s0 answer OK and the digest of no bytes (R101's example). -/
theorem new_then_dig_from_reset {n : Nat} (h : 0 < n) : ∃ t u,
    step ((State.resetWith n).withFetchWord 16 0x1000) = .next t ∧ t.LiveAt 0 0x00 ∧ t.responses = [.ok] ∧
    step (t.withFetchWord 16 0x4000) = .next u ∧ u.responses = [.ok, .data 0x0000] := by
  have hfree : (State.resetWith n).FreeAt 0 := resetWith_freeAt h
  have hlive : (respond .ok (writeAcc 0 Config.init (State.resetWith n))).LiveAt 0 0x00 :=
    writeAcc_liveAt_same hfree.lt
  have hnew : decode (tableWord 16 0x1000) = .ok (.new 0) := by decide
  have hdig : decode (tableWord 16 0x4000) = .ok (.dig 0) := by decide
  exact ⟨_, _, (step_command rfl rfl hnew).trans (exec_new_free hfree), hlive, rfl,
    (step_command rfl rfl hdig).trans (exec_dig_live hlive), rfl⟩

/-! ## UPD commands one after another (R104) -/

/-- The bytes of equal operands cancel, and the loop keeps zero at zero. -/
theorem reduce_self (v : Byte) : reduce v v = 0x00 := by
  rw [reduce, BitVec.xor_self]
  decide

/-- Writing back what a slot holds changes nothing. -/
theorem set_acc_of_liveAt (h : s.LiveAt a acc) : s.slots.set a (some acc) = s.slots := by
  obtain ⟨hlt, hacc⟩ := List.getElem?_eq_some_iff.mp h
  rw [← hacc, List.set_getElem_self]

theorem step_upd {imm : Byte} {rest : List PortEvent} (ha : a < 16) (hf : s.faulted = false) (h : s.LiveAt a acc)
    (hp : s.pending = .command (encode (.upd a imm)) :: rest) :
    step s = .next (respond .ok (writeAcc a (reduce acc imm) { s with pending := rest })) :=
  (step_command hp hf (decode_encode_upd imm ha)).trans (exec_upd_live imm h)

theorem runSteps_updateCommands {data : List Byte} {rest : List PortEvent} (ha : a < 16) (hf : s.faulted = false)
    (h : s.LiveAt a acc) (hp : s.pending = (updateCommands a data).map (fun i => .command (encode i)) ++ rest) :
    runSteps data.length s = some { s with
      slots := s.slots.set a (some (fold acc data)), pending := rest,
      responses := s.responses ++ List.replicate data.length .ok } := by
  induction data generalizing s acc with
  | nil =>
    obtain rfl : s.pending = rest := hp
    simp [fold, set_acc_of_liveAt h]
  | cons b data ih =>
    rw [List.length_cons, runSteps_succ (step_upd ha hf h hp), ih (acc := reduce acc b)]
    · simp [fold, List.replicate_succ]
    · exact hf
    · exact writeAcc_liveAt_same h.lt
    · rfl

end Commands

/-! ## The statements -/

/-- Settles O37: the words by the decoder's first arm, the outcomes by the three situations of a slot, and the example by
two steps of the frame. -/
theorem newConstructsEngine : Obligations.NewConstructsEngine :=
  ⟨selects_new, fun _ _ => ⟨withFree_range _, fun _ => exec_new_live, exec_new_free⟩,
    fun _ hn _ => new_then_dig_from_reset (Nat.zero_lt_of_lt hn)⟩

/-- Settles O38: the words by the decoder's second arm, and the outcomes by the three situations of a slot. -/
theorem updFoldsOneByte : Obligations.UpdFoldsOneByte :=
  ⟨selects_upd, fun _ _ imm => ⟨withLive_range _, withLive_free _, fun _ => exec_upd_live imm⟩,
    by decide, reduce_self, by decide, by decide, by decide, by decide⟩

/-- Settles O39: the error is a response alone, so the slot is still live with the same accumulator for what follows. -/
theorem rejReportsInputTypeError : Obligations.RejReportsInputTypeError := by
  refine ⟨selects_rejText, selects_rejOther, fun s a => ⟨fun h => ⟨withLive_range _ h, withLive_range _ h⟩,
    fun h => ⟨withLive_free _ h, withLive_free _ h⟩, fun acc h => ⟨exec_rejText_live h, exec_rejOther_live h, ?_⟩⟩,
    by decide⟩
  intro t ht
  obtain ⟨c, rfl⟩ := exec_rej_live h ht
  have still : (raiseInputTypeError c s).LiveAt a acc := h
  exact ⟨fun imm => exec_upd_live imm still, exec_dig_live still⟩

/-- Settles O53, by induction on the byte sequence: each UPD leaves its slot live and folded over one byte more. -/
theorem updateFoldsByteSequence : Obligations.UpdateFoldsByteSequence :=
  fun _ _ _ _ _ => runSteps_updateCommands

end Sys2Proof.Machine
end

section
/-! SUPPORT. Proofs of the statements about the queries (42_digest.md): which words are DIG, HEX and the two ATTR
commands, what each returns in the three situations of its slot operand, and the two bytes of its data. -/

namespace Sys2Proof

section Words
variable {w : CommandWord}

/-! ## The words of a query (30_encoding.md R64) -/

theorem decode_dig (hop : opField w = 0x4) (himm : immField w = 0x00) : decode w = .ok (.dig (slotField w).toNat) := by
  simp [decode, whenImm, hop, himm]

theorem decode_hex (hop : opField w = 0x5) (himm : immField w = 0x00) : decode w = .ok (.hex (slotField w).toNat) := by
  simp [decode, whenImm, hop, himm]

theorem decode_attrDsz (hop : opField w = 0x8) (himm : immField w = 0x00) :
    decode w = .ok (.attrDsz (slotField w).toNat) := by
  rw [decode_attr hop, if_pos himm]

theorem decode_attrBsz (hop : opField w = 0x8) (himm : immField w = 0x01) :
    decode w = .ok (.attrBsz (slotField w).toNat) := by
  rw [decode_attr hop, if_neg (by simp [himm]), whenImm, if_pos himm]

end Words

namespace Machine

/-- A row of formats S and K selects its command when the decoder answers that command on the row's opcode and low byte:
the converse is that a decoded word lies in its command's row. -/
theorem selects_opImm {op : Nibble} {imm : Byte} {mk : CommandWord → Instr}
    (hdecode : ∀ {w}, opField w = op → immField w = imm → decode w = .ok (mk w))
    (hrow : ∀ {w}, (mk w).row.Matches w → w &&& 0xF0FF = word op 0 imm) : Selects (word op 0 imm) 0xF0FF mk := by
  intro w
  constructor
  · intro h
    obtain ⟨hop, himm⟩ := (matches_opImm w op imm).mp h
    exact hdecode hop himm
  · intro h
    exact hrow (row_matches_of_decode h)

theorem selects_dig : Selects 0x4000 0xF0FF fun w => .dig (slotField w).toNat :=
  selects_opImm (op := 0x4) (imm := 0x00) decode_dig id

theorem selects_hex : Selects 0x5000 0xF0FF fun w => .hex (slotField w).toNat :=
  selects_opImm (op := 0x5) (imm := 0x00) decode_hex id

theorem selects_attrDsz : Selects 0x8000 0xF0FF fun w => .attrDsz (slotField w).toNat :=
  selects_opImm (op := 0x8) (imm := 0x00) decode_attrDsz id

theorem selects_attrBsz : Selects 0x8001 0xF0FF fun w => .attrBsz (slotField w).toNat :=
  selects_opImm (op := 0x8) (imm := 0x01) decode_attrBsz id

section Queries
variable {s : State} {a : Nat} {acc : Byte}

/-! ## A query on a live slot -/

theorem exec_hex_live (h : s.LiveAt a acc) : exec (.hex a) s = .next (respond (.data (hexData acc)) s) :=
  withLive_live _ h

theorem exec_attrDsz_live (h : s.LiveAt a acc) : exec (.attrDsz a) s = .next (respond (.data Config.digestSize) s) :=
  withLive_live _ h

theorem exec_attrBsz_live (h : s.LiveAt a acc) : exec (.attrBsz a) s = .next (respond (.data Config.blockSize) s) :=
  withLive_live _ h

end Queries

/-! ## The two bytes of a query's data -/

theorem setWidth_highByte (v : Byte) : (v.setWidth 16).extractLsb' 8 8 = 0x00 := by
  ext i hi
  simp

theorem setWidth_lowByte (v : Byte) : (v.setWidth 16).extractLsb' 0 8 = v := by
  ext i hi
  have inWord : i < 16 := by omega
  simp [inWord, BitVec.getLsbD_eq_getElem hi]

/-- The low nibble's character has no bit above bit 7, and the high nibble's stands wholly there (R44, R123). -/
theorem hexData_highByte (v : Byte) : (hexData v).extractLsb' 8 8 = hexChar (v.extractLsb' 4 4) := by
  ext i hi
  have inWord : 8 + i < 16 := by omega
  simp [hexData, inWord, BitVec.getLsbD_eq_getElem hi]

theorem hexData_lowByte (v : Byte) : (hexData v).extractLsb' 0 8 = hexChar (v.extractLsb' 0 4) := by
  ext i hi
  have inWord : i < 16 := by omega
  simp [hexData, hi, inWord]

theorem hexChar_decimal {n : Nibble} (h : n ≤ 0x9) : hexChar n = 0x30 + n.setWidth 8 :=
  if_pos (Nat.lt_succ_of_le (BitVec.le_def.mp h))

/-- The digest of the bytes of "abc" (R120's example). -/
theorem crc_abc : crc [0x61, 0x62, 0x63] = 0x5F := by
  have ha : reduce Config.init 0x61 = 0x20 := by decide
  have hb : reduce 0x20 0x62 = 0xC9 := by decide
  have hc : reduce 0xC9 0x63 = 0x5F := by decide
  simp only [crc, fold, List.foldl_cons, List.foldl_nil, ha, hb, hc]

/-! ## The statements -/

/-- Settles O42: the digits by the first branch of `hexChar`, the six letters by evaluation, the order by the two
bytes of `hexData`. -/
theorem hexCharacterTable : Obligations.HexCharacterTable :=
  ⟨fun _ => hexChar_decimal, by decide, fun v => ⟨hexData_highByte v, hexData_lowByte v⟩⟩

/-- Settles O40: the words by the decoder's arm, the outcomes by the three situations of a slot, and the data as the
accumulator widened to 16 bits. -/
theorem digReturnsAccumulator : Obligations.DigReturnsAccumulator := by
  refine ⟨selects_dig, fun s a => ⟨withLive_range _, withLive_free _, fun acc h => ?_⟩, fun s h => ?_⟩
  · exact ⟨acc.setWidth 16, exec_dig_live h, setWidth_highByte acc, setWidth_lowByte acc⟩
  · rw [crc_abc] at h
    exact exec_dig_live h

/-- Settles O41: the words by the decoder's arm, the outcomes by the three situations of a slot, and the data as the two
characters of `hexData`. -/
theorem hexReturnsTwoCharacters : Obligations.HexReturnsTwoCharacters := by
  refine ⟨selects_hex, fun s a => ⟨withLive_range _, withLive_free _, fun acc h => ?_⟩, by decide, by decide, by decide⟩
  exact ⟨hexData acc, exec_hex_live h, hexData_highByte acc, hexData_lowByte acc⟩

/-- Settles O44: the words by the decoder's arm, the outcomes by the three situations of a slot; the answer does not
read the accumulator. -/
theorem attrDszReturnsOne : Obligations.AttrDszReturnsOne :=
  ⟨selects_attrDsz, fun _ _ => ⟨withLive_range _, withLive_free _, fun _ => exec_attrDsz_live⟩, by decide⟩

/-- Settles O45: as for ATTR.DSZ, with the decoder's other arm of opcode 0x8 and the block size. -/
theorem attrBszReturnsOne : Obligations.AttrBszReturnsOne :=
  ⟨selects_attrBsz, fun _ _ => ⟨withLive_range _, withLive_free _, fun _ => exec_attrBsz_live⟩, by decide⟩

end Machine

end Sys2Proof
end

section
/-! SUPPORT. Proofs of the statements about clone and release (43_copy_release.md): which words are CPY and REL, what each
does in every situation of its slot operands, and what a freed slot answers next. -/

namespace Sys2Proof.Machine

/-! ## The words of CPY and REL (30_encoding.md R64) -/

theorem decode_rel {w : CommandWord} (hop : opField w = 0x7) (himm : immField w = 0x00) :
    decode w = .ok (.rel (slotField w).toNat) := by
  simp [decode, whenImm, hop, himm]

theorem selects_rel : Selects 0x7000 0xF0FF fun w => .rel (slotField w).toNat :=
  selects_opImm (op := 0x7) (imm := 0x00) decode_rel id

/-- The decoder's test of Z4 is all that the mask of format P adds to the opcode. -/
theorem selects_cpy : Selects 0x6000 0xF00F fun w => .cpy (slotField w).toNat (srcField w).toNat := by
  intro w
  constructor
  · intro h
    obtain ⟨hop, hz⟩ := (matches_opZero w 0x6).mp h
    rw [decode_cpy hop, if_pos hz]
  · intro h
    exact row_matches_of_decode h

section CloneRelease
variable {s t : State} {a d src : Nat} {acc : Byte}

/-! ## The clone (R135) -/

/-- The ranges of both operands are checked before anything else. -/
theorem exec_cpy_range (h : s.numInst ≤ d ∨ s.numInst ≤ src) :
    exec (.cpy d src) s = .next (raiseFault .slotRange s) := by
  by_cases hd : s.numInst ≤ d
  · exact execCpy_range_dest hd
  · exact execCpy_range_source (Nat.not_le.mp hd) (h.resolve_left hd)

/-- After a copy both slots hold the source's accumulator: the destination was free, so it is not the source. -/
theorem exec_cpy_both_live (hs : s.LiveAt src acc) (hd : s.FreeAt d) (ht : exec (.cpy d src) s = .next t) :
    t.LiveAt d acc ∧ t.LiveAt src acc := by
  obtain rfl : respond .ok (writeAcc d acc s) = t := by simpa [exec_cpy_copies hs hd] using ht
  have hne : d ≠ src := fun e => hs.not_free (e ▸ hd)
  exact ⟨writeAcc_liveAt_same hd.lt, writeAcc_liveAt_other hne hs⟩

/-! ## The released slot (R140) -/

/-- A command whose engine slot is free raises SLOT_NOT_LIVE, once no fault of higher priority is there: every operand is
in range and it is no copy of a slot to itself. -/
theorem exec_engineSlot_free {i : Instr} (h : s.FreeAt a) (hi : engineSlot i = some a)
    (hrange : ∀ k ∈ slotOperands i, k < s.numInst) (hne : i ≠ .cpy a a) :
    exec i s = .next (raiseFault .slotNotLive s) := by
  cases i with
  | new => cases hi
  | upd | rejText | rejOther | dig | hex | rel | attrDsz | attrBsz =>
    cases hi
    exact withLive_free _ h
  | cpy d src =>
    cases hi
    have hd : d < s.numInst := hrange d (by simp [slotOperands])
    exact execCpy_source_free hd (fun e => hne (e ▸ rfl)) h

theorem exec_rel_freeAt (h : s.LiveAt a acc) (ht : exec (.rel a) s = .next t) : t.FreeAt a := by
  obtain rfl : respond .ok (freeSlot a s) = t := by simpa [exec_rel_live h] using ht
  exact freeSlot_freeAt_same h.lt

end CloneRelease

/-! ## The statements -/

/-- Settles O46: the words by the decoder's arm of format P, each fault by its place in CPY's order of checks, and the copy
as one write of the destination with the source's accumulator. -/
theorem cpyClonesAccumulator : Obligations.CpyClonesAccumulator := by
  refine ⟨selects_cpy, fun s d src => ⟨exec_cpy_range, ?_, execCpy_source_free, fun _ _ => execCpy_dest_live,
    fun acc hs hd => ⟨exec_cpy_copies hs hd, fun t => exec_cpy_both_live hs hd⟩⟩, by decide⟩
  rintro hd rfl
  exact execCpy_same hd

/-- Settles O47: the words by the decoder's arm, the outcomes by the three situations of a slot; what follows a REL rests
on the slot being free in the state it leaves. -/
theorem relFreesSlot : Obligations.RelFreesSlot := by
  refine ⟨selects_rel, fun s a => ⟨withLive_range _, exec_rel_free, fun acc h => ⟨exec_rel_live h, ?_⟩⟩, by decide⟩
  intro t ht
  have hfree : t.FreeAt a := exec_rel_freeAt h ht
  have hother (j : Nat) (hne : j ≠ a) : t.slots[j]? = s.slots[j]? :=
    (slotsDoNotAlias (.rel a) s t ht).1 j (by simpa [writtenSlot] using hne.symm)
  exact ⟨hother, fun i => exec_engineSlot_free hfree, exec_new_free hfree, fun src v hs => exec_cpy_copies hs hfree⟩

end Sys2Proof.Machine
end

section
/-! SUPPORT. Proofs of the statements about exceptions (60_exceptions.md): the order in which a command's checks report, the
three ways in which an accepted word ends, and what a faulted block answers up to the next reset. -/

namespace Sys2Proof.Machine

/-! ## The code of an error (R151, R154) -/

/-- FCODE takes the low four bits of a fault's code and the refusal widens them again: nothing is lost (R155, R156). -/
theorem fcode_of_code (f : FatalFault) : (f.code.setWidth 4).setWidth 8 = f.code := by
  cases f <;> decide

theorem fcode_of_code_toNat (f : FatalFault) : (f.code.setWidth 4).toNat = f.code.toNat := by
  cases f <;> decide

theorem FatalFault.code_listed (f : FatalFault) : f.code ∈ [(0x08 : Byte), 0x09, 0x0A, 0x0B, 0x0C] := by
  cases f <;> decide

theorem InputTypeCause.code_listed (c : InputTypeCause) : c.code ∈ [(0x01 : Byte), 0x02] := by
  cases c <;> decide

/-- Only the two REJ commands may answer a recoverable error (R158), and they write no slot. -/
theorem writtenSlot_eq_none_of_inputTypeError {i : Instr} {c : Byte} (h : MayAnswer i (.err c))
    (hc : c = 0x01 ∨ c = 0x02) : writtenSlot i = none := by
  cases i with
  | rejText | rejOther | dig | hex | attrDsz | attrBsz => rfl
  | new | upd | cpy | rel => obtain rfl | rfl := hc <;> simp [MayAnswer, possibleErrors] at h

section Frame
variable {s : State} {w : CommandWord} {rest : List PortEvent}

/-! ## The order of a command's checks (R157) -/

/-- The ranges of all slot operands are checked before anything else. -/
theorem exec_slotOperand_range {i : Instr} {a : Nat} (ha : a ∈ slotOperands i) (h : s.numInst ≤ a) :
    exec i s = .next (raiseFault .slotRange s) := by
  cases i with
  | new =>
    obtain rfl := List.mem_singleton.mp ha
    exact withFree_range _ h
  | upd | rejText | rejOther | dig | hex | rel | attrDsz | attrBsz =>
    obtain rfl := List.mem_singleton.mp ha
    exact withLive_range _ h
  | cpy d src =>
    obtain rfl | rfl : a = d ∨ a = src := by simpa [slotOperands] using ha
    · exact exec_cpy_range (.inl h)
    · exact exec_cpy_range (.inr h)

/-- A command whose receiving slot holds an engine raises SLOT_BUSY, once no fault of higher priority is there: the slot
that must hold an engine holds one and it is no copy of a slot to itself. -/
theorem exec_receivingSlot_live {i : Instr} {a : Nat} {v : Byte} (h : s.LiveAt a v) (hi : receivingSlot i = some a)
    (hengine : ∀ k, engineSlot i = some k → ∃ acc, s.LiveAt k acc) (hne : ∀ k, i ≠ .cpy k k) :
    exec i s = .next (raiseFault .slotBusy s) := by
  cases i with
  | new =>
    cases hi
    exact exec_new_live h
  | cpy d src =>
    cases hi
    obtain ⟨acc, hsrc⟩ := hengine src rfl
    exact execCpy_dest_live (fun e => hne src (e ▸ rfl)) hsrc h
  | upd | rejText | rejOther | dig | hex | rel | attrDsz | attrBsz => cases hi

/-! ## The ways in which an accepted word ends (R150) -/

/-- A word accepted in a state that is not faulted raises a fatal fault on the state without the word, or is a command that
returns one response after writing at most the slot it writes. -/
theorem step_command_cases (hp : s.pending = .command w :: rest) (hf : s.faulted = false) :
    (∃ f, step s = .next (raiseFault f { s with pending := rest })) ∨
    (∃ i r slots, decode w = .ok i ∧ step s = exec i { s with pending := rest } ∧
      step s = .next (respond r { s with pending := rest, slots := slots }) ∧ MayAnswer i r ∧
      (∀ c, r = .err c → c = 0x01 ∨ c = 0x02) ∧ (writtenSlot i = none → slots = s.slots)) := by
  cases hd : decode w with
  | error e => exact .inl ⟨_, step_illegal hp hf hd⟩
  | ok i =>
    have hstep := step_command hp hf hd
    obtain ⟨f, -, -, he⟩ | ⟨r, slots, he, hr, hc, -, hnone, -⟩ := exec_cases i { s with pending := rest }
    · exact .inl ⟨f, hstep.trans he⟩
    · exact .inr ⟨i, r, slots, rfl, hstep, hstep.trans he, hr, hc, hnone⟩

/-! ## The faulted block (R156) -/

/-- A faulted block answers each word of an unbroken run of commands with the recorded code. -/
theorem runSteps_refused {later : List CommandWord} (hf : s.faulted = true)
    (hp : s.pending = later.map .command ++ rest) :
    runSteps later.length s = some { s with
      pending := rest, responses := s.responses ++ List.replicate later.length (.err (s.fcode.setWidth 8)) } := by
  induction later generalizing s with
  | nil =>
    obtain rfl : s.pending = rest := hp
    simp
  | cons w later ih =>
    rw [List.length_cons, runSteps_succ (step_refused hp hf), ih]
    · simp [refuseFaulted, respond, List.replicate_succ]
    · exact hf
    · rfl

/-- After a fatal fault every word of an unbroken run of commands is answered with the fault's code. -/
theorem runSteps_after_fault (f : FatalFault) {later : List CommandWord} (hp : s.pending = later.map .command ++ rest) :
    runSteps later.length (raiseFault f s) = some { raiseFault f s with
      pending := rest,
      responses := (raiseFault f s).responses ++ List.replicate later.length (.err f.code) } := by
  simpa [fcode_of_code] using runSteps_refused (raiseFault_faulted s f) hp

/-- A step out of the faulted state takes a reset: everything else a faulted block does keeps FAULTED (R161). -/
theorem reset_pending_of_fault_cleared {t : State} (hf : s.faulted = true) (h : step s = .next t)
    (ht : t.faulted = false) : ∃ rest, s.pending = .reset :: rest := by
  have kept (hkeep : t.faulted = s.faulted) : False := by simp [hkeep, hf] at ht
  obtain ⟨-, rfl⟩ | ⟨rest, -, rfl⟩ | ⟨rest, hp, -⟩ | ⟨w, rest, -, hcommand⟩ := step_cases h
  · exact (kept rfl).elim
  · exact (kept rfl).elim
  · exact ⟨rest, hp⟩
  · obtain ⟨-, rfl⟩ | ⟨hn, -⟩ | ⟨hn, -⟩ := hcommand
    · exact (kept rfl).elim
    · simp [hf] at hn
    · simp [hf] at hn

/-! ## The recoverable error (R152) -/

/-- REJ.TEXT and then REJ.OTHER only return their two errors, so the slot still answers its digest. -/
theorem rej_rej_dig_live {a : Nat} {acc : Byte} (h : s.LiveAt a acc) :
    ∃ t u, exec (.rejText a) s = .next t ∧ exec (.rejOther a) t = .next u ∧ u.LiveAt a acc ∧
      u = { s with responses := s.responses ++ [.err 0x01, .err 0x02] } ∧
      exec (.dig a) u = .next { u with responses := u.responses ++ [.data (acc.setWidth 16)] } := by
  have hlive : (raiseInputTypeError .text s).LiveAt a acc := h
  have hstill : (raiseInputTypeError .other (raiseInputTypeError .text s)).LiveAt a acc := h
  refine ⟨_, _, exec_rejText_live h, exec_rejOther_live hlive, hstill, ?_, exec_dig_live hstill⟩
  simp [raiseInputTypeError, respond, InputTypeCause.code]

end Frame

/-! ## The statements -/

/-- Settles O2: the frame's three cases, then each check by its place in the order; a REJ answers its error when the slot
operand, which it needs live, is. -/
theorem commandFrameTakesFirstOutcome : Obligations.CommandFrameTakesFirstOutcome := by
  refine ⟨fun s w rest hp => ⟨step_refused hp, fun hf e => step_illegal hp hf, fun hf i => step_command hp hf⟩,
    fun i s => ⟨fun ⟨a, ha, h⟩ => exec_slotOperand_range ha h, fun hrange => ⟨?_, fun hne => ⟨?_, fun hengine => ?_⟩⟩⟩,
    fun s h => execCpy_same h.lt, fun s h => exec_slotOperand_range (List.mem_singleton_self 5) (by simp [h])⟩
  · rintro a rfl
    exact execCpy_same (hrange a (by simp [slotOperands]))
  · intro a ha hfree
    exact exec_engineSlot_free hfree ha hrange (hne a)
  · refine ⟨fun a v ha hlive => exec_receivingSlot_live hlive ha hengine hne, ?_, ?_⟩
    · rintro a rfl
      obtain ⟨v, hlive⟩ := hengine a rfl
      exact exec_rejText_live hlive
    · rintro a rfl
      obtain ⟨v, hlive⟩ := hengine a rfl
      exact exec_rejOther_live hlive

/-- Settles O3: the five codes fit FCODE, and of the ways in which an accepted word ends only a fatal fault sets
FAULTED. -/
theorem raiseFaultWritesStatusOnly : Obligations.RaiseFaultWritesStatusOnly := by
  refine ⟨fun f s => ⟨rfl, fcode_of_code_toNat f, rfl, f.code_listed⟩, ?_⟩
  intro s t w rest hp hf h ht
  obtain ⟨f, he⟩ | ⟨i, r, slots, -, -, he, -⟩ := step_command_cases hp hf
  · rw [h] at he
    cases he
    exact ⟨f, rfl, rfl⟩
  · rw [h] at he
    cases he
    simp [hf] at ht

/-- Settles O5: the frame's first case, the one event that clears FAULTED, and the side-band read, which does not look at
FAULTED. -/
theorem faultedStateRefusesCommands : Obligations.FaultedStateRefusesCommands := by
  refine ⟨fun s w rest hp hf => ⟨step_refused hp hf, ?_⟩, fun s t => reset_pending_of_fault_cleared,
    fun s rest hp _ => step_readStatus hp⟩
  exact BitVec.setWidth_setWidth (by decide)

/-- Settles O6: a fatal fault, after which the recorded code answers every further word; or a response, which is a success
or an InputTypeError of a command that writes no slot. -/
theorem commandEndsInOneOfThreeWays : Obligations.CommandEndsInOneOfThreeWays := by
  intro s w rest hp hf
  obtain ⟨f, he⟩ | ⟨i, r, slots, hd, hx, he, hr, hc, hnone⟩ := step_command_cases hp hf
  · exact ⟨_, .err f.code, he, rfl, .inr (.inr ⟨f.code, f.code_listed, rfl, rfl,
      fun later rest' hlater => runSteps_after_fault f hlater⟩)⟩
  · refine ⟨_, r, he, rfl, ?_⟩
    have hkind : (r = .ok ∨ ∃ v, r = .data v) ∨ ∃ c, r = .err c := by cases r <;> simp
    obtain hsuccess | ⟨c, rfl⟩ := hkind
    · exact .inl ⟨hsuccess, hf, rfl, i, hd, hx.symm.trans he⟩
    · have hcode := hc c rfl
      obtain rfl := hnone (writtenSlot_eq_none_of_inputTypeError hr hcode)
      exact .inr (.inl ⟨by simpa using hcode, rfl⟩)

/-- Settles O7: raising the error is one response, whose code is one of two, and two REJ commands raise it twice. -/
theorem inputTypeErrorWritesNoState : Obligations.InputTypeErrorWritesNoState :=
  ⟨fun c _ => ⟨rfl, c.code_listed, rfl⟩, fun _ _ _ => rej_rej_dig_live⟩

end Sys2Proof.Machine
end

section
/-! SUPPORT. Proofs of the statements about the encoding (30_encoding.md): decoding undoes encoding and encoding undoes
decoding, and the decoder agrees with the opcode map row by row. -/

namespace Sys2Proof

/-! ## The commands of formats S and K (R62, R64) -/

/-- A command with one slot operand and a fixed low byte, as the encoder, the decoder and the opcode map each
know it. -/
structure IsSlotCommand (op : Nibble) (imm : Byte) (mk : Nat → Instr) : Prop where
  encode_eq (a : Nat) : encode (mk a) = word op (BitVec.ofNat 4 a) imm
  wellFormed_eq (a : Nat) : (mk a).wellFormed = slotFits a
  row_matches (a : Nat) (w : CommandWord) : (mk a).row.Matches w → w &&& 0xF0FF = word op 0 imm
  decode_eq {w : CommandWord} : opField w = op → immField w = imm → decode w = .ok (mk (slotField w).toNat)

theorem isSlotCommand_new : IsSlotCommand 0x1 0x00 .new := ⟨fun _ => rfl, fun _ => rfl, fun _ _ => id, decode_new⟩
theorem isSlotCommand_rejText : IsSlotCommand 0x3 0x01 .rejText :=
  ⟨fun _ => rfl, fun _ => rfl, fun _ _ => id, decode_rejText⟩
theorem isSlotCommand_rejOther : IsSlotCommand 0x3 0x02 .rejOther :=
  ⟨fun _ => rfl, fun _ => rfl, fun _ _ => id, decode_rejOther⟩
theorem isSlotCommand_dig : IsSlotCommand 0x4 0x00 .dig := ⟨fun _ => rfl, fun _ => rfl, fun _ _ => id, decode_dig⟩
theorem isSlotCommand_hex : IsSlotCommand 0x5 0x00 .hex := ⟨fun _ => rfl, fun _ => rfl, fun _ _ => id, decode_hex⟩
theorem isSlotCommand_rel : IsSlotCommand 0x7 0x00 .rel :=
  ⟨fun _ => rfl, fun _ => rfl, fun _ _ => id, Machine.decode_rel⟩
theorem isSlotCommand_attrDsz : IsSlotCommand 0x8 0x00 .attrDsz :=
  ⟨fun _ => rfl, fun _ => rfl, fun _ _ => id, decode_attrDsz⟩
theorem isSlotCommand_attrBsz : IsSlotCommand 0x8 0x01 .attrBsz :=
  ⟨fun _ => rfl, fun _ => rfl, fun _ _ => id, decode_attrBsz⟩

/-! ## Slot operands and their fields (R63) -/

theorem lt_of_slotFits {a : Nat} (h : slotFits a = true) : a < 16 := of_decide_eq_true h

theorem slotFits_toNat (n : Nibble) : slotFits n.toNat = true := decide_eq_true n.isLt

theorem toNat_ofNat_slot {a : Nat} (h : a < 16) : (BitVec.ofNat 4 a).toNat = a := by
  rw [BitVec.toNat_ofNat, Nat.mod_eq_of_lt h]

/-- A word is rebuilt from its opcode, its low byte and the number of its slot. -/
theorem word_slotField_toNat (w : CommandWord) :
    word (opField w) (BitVec.ofNat 4 (slotField w).toNat) (immField w) = w := by
  rw [BitVec.ofNat_toNat, BitVec.setWidth_eq, word_fields]

/-! ## Decoding an encoding -/

theorem IsSlotCommand.decode_encode {op : Nibble} {imm : Byte} {mk : Nat → Instr} (hc : IsSlotCommand op imm mk)
    {a : Nat} (h : (mk a).wellFormed = true) : decode (encode (mk a)) = .ok (mk a) := by
  rw [hc.wellFormed_eq] at h
  rw [hc.encode_eq, hc.decode_eq (opField_word ..) (immField_word ..), slotField_word,
    toNat_ofNat_slot (lt_of_slotFits h)]

theorem decode_encode_cpy {d src : Nat} (hd : d < 16) (hs : src < 16) :
    decode (encode (.cpy d src)) = .ok (.cpy d src) := by
  rw [encode, decode_cpy (opField_word ..), if_pos (zeroField_word ..), slotField_word, srcField_word,
    toNat_ofNat_slot hd, toNat_ofNat_slot hs]

theorem decode_encode {i : Instr} (h : i.wellFormed = true) : decode (encode i) = .ok i := by
  cases i with
  | new => exact isSlotCommand_new.decode_encode h
  | upd a imm => exact decode_encode_upd imm (lt_of_slotFits h)
  | rejText => exact isSlotCommand_rejText.decode_encode h
  | rejOther => exact isSlotCommand_rejOther.decode_encode h
  | dig => exact isSlotCommand_dig.decode_encode h
  | hex => exact isSlotCommand_hex.decode_encode h
  | cpy d src =>
    obtain ⟨hd, hs⟩ := Bool.and_eq_true_iff.mp h
    exact decode_encode_cpy (lt_of_slotFits hd) (lt_of_slotFits hs)
  | rel => exact isSlotCommand_rel.decode_encode h
  | attrDsz => exact isSlotCommand_attrDsz.decode_encode h
  | attrBsz => exact isSlotCommand_attrBsz.decode_encode h

/-! ## Encoding what was decoded -/

section Decoded
variable {w : CommandWord} {i : Instr}

/-- The row fixes opcode and low byte, so what was decoded is the command with the word's own slot. -/
theorem IsSlotCommand.encode_of_decode {op : Nibble} {imm : Byte} {mk : Nat → Instr} (hc : IsSlotCommand op imm mk)
    {a : Nat} (h : decode w = .ok (mk a)) : encode (mk a) = w ∧ (mk a).wellFormed = true := by
  obtain ⟨rfl, rfl⟩ := (matches_opImm w op imm).mp (hc.row_matches a w (row_matches_of_decode h))
  have hmk : mk (slotField w).toNat = mk a := Except.ok.inj ((hc.decode_eq rfl rfl).symm.trans h)
  rw [← hmk, hc.encode_eq, hc.wellFormed_eq]
  exact ⟨word_slotField_toNat w, slotFits_toNat _⟩

theorem encode_of_decode_upd {a : Nat} {imm : Byte} (h : decode w = .ok (.upd a imm)) :
    encode (.upd a imm) = w ∧ (Instr.upd a imm).wellFormed = true := by
  have hop : opField w = 0x2 := (matches_op w 0x2).mp (row_matches_of_decode h)
  obtain ⟨rfl, rfl⟩ : (slotField w).toNat = a ∧ immField w = imm := by simpa [decode_upd hop] using h
  refine ⟨?_, slotFits_toNat _⟩
  rw [encode, ← hop, word_slotField_toNat]

theorem encode_of_decode_cpy {d src : Nat} (h : decode w = .ok (.cpy d src)) :
    encode (.cpy d src) = w ∧ (Instr.cpy d src).wellFormed = true := by
  obtain ⟨hop, hz⟩ := (matches_opZero w 0x6).mp (row_matches_of_decode h)
  obtain ⟨rfl, rfl⟩ : (slotField w).toNat = d ∧ (srcField w).toNat = src := by simpa [decode_cpy hop, hz] using h
  refine ⟨?_, Bool.and_eq_true_iff.mpr ⟨slotFits_toNat _, slotFits_toNat _⟩⟩
  rw [encode, ← hop, BitVec.ofNat_toNat, BitVec.setWidth_eq, BitVec.ofNat_toNat, BitVec.setWidth_eq,
    ← immField_eq_sourceByte w hz, word_fields]

theorem encode_of_decode (h : decode w = .ok i) : encode i = w ∧ i.wellFormed = true := by
  cases i with
  | new => exact isSlotCommand_new.encode_of_decode h
  | upd => exact encode_of_decode_upd h
  | rejText => exact isSlotCommand_rejText.encode_of_decode h
  | rejOther => exact isSlotCommand_rejOther.encode_of_decode h
  | dig => exact isSlotCommand_dig.encode_of_decode h
  | hex => exact isSlotCommand_hex.encode_of_decode h
  | cpy => exact encode_of_decode_cpy h
  | rel => exact isSlotCommand_rel.encode_of_decode h
  | attrDsz => exact isSlotCommand_attrDsz.encode_of_decode h
  | attrBsz => exact isSlotCommand_attrBsz.encode_of_decode h

/-! ## The opcode map (R64) -/

/-- A word in a row of the table is a command of that row. -/
theorem decode_of_row_matches {r : OpcodeRow} (hr : r ∈ opcodeTable) (h : r.Matches w) :
    ∃ i, decode w = .ok i ∧ i.row = r := by
  simp only [opcodeTable, List.mem_cons, List.not_mem_nil, or_false] at hr
  obtain rfl | rfl | rfl | rfl | rfl | rfl | rfl | rfl | rfl | rfl := hr
  · exact ⟨_, (Machine.selects_new w).mp h, rfl⟩
  · exact ⟨_, (Machine.selects_upd w).mp h, rfl⟩
  · exact ⟨_, (Machine.selects_rejText w).mp h, rfl⟩
  · exact ⟨_, (Machine.selects_rejOther w).mp h, rfl⟩
  · exact ⟨_, (Machine.selects_dig w).mp h, rfl⟩
  · exact ⟨_, (Machine.selects_hex w).mp h, rfl⟩
  · exact ⟨_, (Machine.selects_cpy w).mp h, rfl⟩
  · exact ⟨_, (Machine.selects_rel w).mp h, rfl⟩
  · exact ⟨_, (Machine.selects_attrDsz w).mp h, rfl⟩
  · exact ⟨_, (Machine.selects_attrBsz w).mp h, rfl⟩

end Decoded

/-! ## The statements -/

/-- Settles O24: the fields of an encoded word are the ones it was made of, and a slot that fits its
field is not cut. -/
theorem decodeOfEncode : Obligations.DecodeOfEncode :=
  fun _ => decode_encode

/-- Settles O25: the row of the decoded command fixes all of the word but its operands, which are the word's own
fields. -/
theorem encodeOfDecode : Obligations.EncodeOfDecode :=
  fun _ _ => encode_of_decode

/-- Settles O21: rows select their commands and a decoded word lies in its command's row; since a word decodes to one
command only, it matches one row only. -/
theorem decodeMatchesOpcodeMap : Obligations.DecodeMatchesOpcodeMap := by
  refine ⟨fun r hr w => ⟨decode_of_row_matches hr, ?_⟩, fun r hr r' hr' w h h' => ?_⟩
  · rintro ⟨i, hi, rfl⟩
    exact row_matches_of_decode hi
  · obtain ⟨i, hi, rfl⟩ := decode_of_row_matches hr h
    obtain ⟨j, hj, rfl⟩ := decode_of_row_matches hr' h'
    obtain rfl : i = j := Except.ok.inj (hi.symm.trans hj)
    rfl

/-- Settles O26: the decoder is run on each of the thirteen words. -/
theorem specWordsDecode : Obligations.SpecWordsDecode := by
  unfold Obligations.SpecWordsDecode
  decide

end Sys2Proof
end

section
/-! SUPPORT. Proofs of the statements about the port and about STATUS (60_exceptions.md, 10_state.md): what a command
and a step answer, the invariant of the block, the fields of the STATUS word, reset. -/

namespace Sys2Proof.Machine

/-! ## Every step answers -/

theorem exec_total (i : Instr) (s : State) : ∃ t, exec i s = .next t := by
  obtain ⟨f, -, -, h⟩ | ⟨r, slots, h, -⟩ := exec_cases i s
  · exact ⟨_, h⟩
  · exact ⟨_, h⟩

theorem acceptCommand_total (w : CommandWord) (s : State) : ∃ t, acceptCommand w s = .next t := by
  unfold acceptCommand
  split
  · exact ⟨_, rfl⟩
  · split
    · exact ⟨_, rfl⟩
    · exact exec_total _ s

theorem step_total (s : State) : ∃ t, step s = .next t := by
  rcases hp : s.pending with _ | ⟨e, rest⟩
  · exact ⟨s, step_idle hp⟩
  · rw [step_event hp]
    cases e with
    | command w => exact acceptCommand_total w _
    | readStatus => exact ⟨_, rfl⟩
    | reset => exact ⟨_, rfl⟩

theorem runSteps_total (n : Nat) (s : State) : ∃ t, runSteps n s = some t := by
  induction n generalizing s with
  | zero => exact ⟨s, rfl⟩
  | succ n ih =>
    obtain ⟨u, hu⟩ := step_total s
    rw [runSteps_succ hu]
    exact ih u

/-! ## The fields of the STATUS word (R28) -/

theorem statusWord_faulted (s : State) : (statusWord s).getLsbD 0 = s.faulted := by
  simp [statusWord]

theorem statusWord_fcode (s : State) : (statusWord s).extractLsb' 4 4 = s.fcode := by
  ext i hi
  interval_cases i <;> simp [statusWord]

/-- With no fault recorded STATUS holds NINST_M1 alone (R181). -/
theorem statusWord_of_not_faulted {s : State} (hf : s.faulted = false) (hc : s.fcode = 0x0) (hn : s.numInst ≤ 16) :
    statusWord s = BitVec.ofNat 16 ((s.numInst - 1) <<< 12) := by
  have hnibble : (ninstM1 s).setWidth 16 = BitVec.ofNat 16 (s.numInst - 1) := by
    apply BitVec.eq_of_toNat_eq
    rw [BitVec.toNat_setWidth, ninstM1_toNat hn, BitVec.toNat_ofNat]
  rw [statusWord, hf, hc, hnibble]
  apply BitVec.eq_of_toNat_eq
  simp [Nat.shiftLeft_eq]

/-! ## The invariant (R9, R28) -/

/-- A recorded fault has a legal code, and not the code of no fault (R154). -/
theorem fcode_of_code_legal (f : FatalFault) : f.code.setWidth 4 ∈ legalFcodes := by
  cases f <;> decide

theorem fcode_of_code_ne_zero (f : FatalFault) : f.code.setWidth 4 ≠ 0x0#4 := by
  cases f <;> decide

/-- The invariant speaks of the bank size and of the two STATUS fields only. -/
theorem State.Inv.congr {s t : State} (h : s.Inv) (hn : t.numInst = s.numInst) (hf : t.faulted = s.faulted)
    (hc : t.fcode = s.fcode) : t.Inv where
  bank := hn ▸ h.bank
  code := hc ▸ h.code
  sticky := by rw [hf, hc]; exact h.sticky

theorem inv_raiseFault {s : State} (h : s.Inv) (f : FatalFault) : (raiseFault f s).Inv where
  bank := h.bank
  code := fcode_of_code_legal f
  sticky := iff_of_false (by simp) (fcode_of_code_ne_zero f)

theorem inv_resetBlock {s : State} (h : s.Inv) : (resetBlock s).Inv where
  bank := by rw [resetBlock_numInst]; exact h.bank
  code := List.mem_cons_self
  sticky := by simp

theorem inv_resetWith {n : Nat} (hlo : 2 ≤ n) (hhi : n ≤ 16) : (State.resetWith n).Inv where
  bank := by rw [resetWith_numInst]; exact ⟨hlo, hhi⟩
  code := List.mem_cons_self
  sticky := by simp

/-- Every step keeps the invariant and the bank size. -/
theorem inv_step {s t : State} (h : s.Inv) (hstep : step s = .next t) : t.Inv ∧ t.numInst = s.numInst := by
  have popped (rest : List PortEvent) : ({ s with pending := rest } : State).Inv := h.congr rfl rfl rfl
  obtain ⟨-, rfl⟩ | ⟨rest, -, rfl⟩ | ⟨rest, -, rfl⟩ | ⟨w, rest, -, hcommand⟩ := step_cases hstep
  · exact ⟨h, rfl⟩
  · exact ⟨h.congr rfl rfl rfl, rfl⟩
  · exact ⟨inv_resetBlock (popped rest), resetBlock_numInst _⟩
  · obtain ⟨-, rfl⟩ | ⟨-, f, rfl⟩ | ⟨-, i, r, slots, -, -, rfl, -, -, hlen, -⟩ := hcommand
    · exact ⟨h.congr rfl rfl rfl, rfl⟩
    · exact ⟨inv_raiseFault (popped rest) f, rfl⟩
    · exact ⟨h.congr hlen rfl rfl, hlen⟩

/-- The code a faulted block answers with is the code of a fatal fault (R156). -/
theorem State.Inv.refusal_code {s : State} (h : s.Inv) (hf : s.faulted = true) :
    s.fcode.setWidth 8 ∈ [(0x08 : Byte), 0x09, 0x0A, 0x0B, 0x0C] := by
  have hne : s.fcode ≠ 0x0 := fun hz => by simpa [hf] using h.sticky.mpr hz
  have hcode := h.code
  simp only [legalFcodes, List.mem_cons, List.not_mem_nil, or_false, hne, false_or] at hcode
  obtain hc | hc | hc | hc | hc := hcode <;> simp [hc]

/-! ## The statements -/

/-- Settles O20: each way in which a step can end keeps the bank size and leaves a legal pair of STATUS fields. -/
theorem stepKeepsInvariant : Obligations.StepKeepsInvariant :=
  fun _ _ => inv_step

/-- Settles O4: a step returns nothing, the recorded code, a fatal fault's code, or a response of the command's row,
which is an ERR only for an InputTypeError. -/
theorem onlyListedErrorCodesAreReturned : Obligations.OnlyListedErrorCodesAreReturned := by
  refine ⟨by decide, fun s t hinv hstep => ?_⟩
  obtain ⟨-, rfl⟩ | ⟨rest, -, rfl⟩ | ⟨rest, -, rfl⟩ | ⟨w, rest, -, hcommand⟩ := step_cases hstep
  · exact .inl rfl
  · exact .inl rfl
  · exact .inl rfl
  · right
    obtain ⟨hf, rfl⟩ | ⟨-, f, rfl⟩ | ⟨-, i, r, slots, -, -, rfl, -, hcode, -⟩ := hcommand
    · refine ⟨_, rfl, ?_⟩
      rintro _ ⟨⟩
      exact .tail _ (.tail _ (hinv.refusal_code hf))
    · refine ⟨_, rfl, ?_⟩
      rintro _ ⟨⟩
      exact .tail _ (.tail _ f.code_listed)
    · refine ⟨r, rfl, fun c hc => ?_⟩
      obtain rfl | rfl := hcode c hc <;> decide

/-- Settles O8: a fatal fault of the command's row answers ERR with its code, and otherwise the one response is the
row's. -/
theorem commandsAnswerAsTheirRowAllows : Obligations.CommandsAnswerAsTheirRowAllows := by
  intro i s
  obtain ⟨f, -, hf, h⟩ | ⟨r, slots, h, hr, -⟩ := exec_cases i s
  · exact ⟨_, .err f.code, h, rfl, hf⟩
  · exact ⟨_, r, h, rfl, hr⟩

/-- Settles O10: raising a fault and returning a response each append one response and write none of the port's other
fields, and a write of a slot keeps the length of the bank. -/
theorem commandTouchesPortByOneResponse : Obligations.CommandTouchesPortByOneResponse := by
  intro i s t h
  obtain ⟨f, -, -, e⟩ | ⟨r, slots, e, -, -, hlen, -⟩ := exec_cases i s
  · rw [h] at e
    cases e
    exact ⟨⟨_, rfl⟩, rfl, rfl, rfl⟩
  · rw [h] at e
    cases e
    exact ⟨⟨r, rfl⟩, rfl, rfl, hlen⟩

/-- Settles O13: the frame answers in each of its cases, and a run is one step after another. -/
theorem everyStepAnswersNext : Obligations.EveryStepAnswersNext :=
  ⟨step_total, runSteps_total⟩

/-- Settles O15: each field is read off the assembled word, and the invariant says which values it has. -/
theorem statusWordFields : Obligations.StatusWordFields := by
  intro s h
  have hninst : ((statusWord s).extractLsb' 12 4).toNat = s.numInst - 1 := by
    rw [statusWord_ninstM1, ninstM1_toNat h.bank.2]
  rw [statusWord_faulted, statusWord_fcode]
  exact ⟨rfl, statusWord_bits_3_1 s, rfl, statusWord_bits_11_8 s, hninst, h.code, h.sticky⟩

/-- Settles O16: the reset event is the block reset, and everything else a faulted block does keeps FAULTED. -/
theorem resetFreesBankAndClearsFault : Obligations.ResetFreesBankAndClearsFault :=
  ⟨fun _ _ => step_reset, fun _ _ => reset_pending_of_fault_cleared⟩

/-- Settles O18: after a reset no fault is recorded, so STATUS holds NINST_M1 alone. -/
theorem statusAfterReset : Obligations.StatusAfterReset := by
  refine ⟨fun s rest h hp => ⟨_, step_reset hp, ?_, fun i hi => ?_⟩, by decide⟩
  · have hsize : (resetBlock { s with pending := rest }).numInst = s.numInst := resetBlock_numInst _
    rw [statusWord_of_not_faulted rfl rfl (hsize.trans_le h.bank.2), hsize]
  · have hlt : i < s.slots.length := hi
    simp [State.FreeAt, hlt]

/-- Settles O49: a command raises a fatal fault of its own, which ILLEGAL_COMMAND is not, or writes neither STATUS
field. -/
theorem commandFaultsPrecisely : Obligations.CommandFaultsPrecisely := by
  intro i s t h
  obtain ⟨f, hne, -, e⟩ | ⟨r, slots, e, -⟩ := exec_cases i s
  · rw [h] at e
    cases e
    exact .inr ⟨f, hne, rfl, rfl⟩
  · rw [h] at e
    cases e
    exact .inl ⟨rfl, rfl⟩

/-- Settles O1: the third case of the frame. -/
theorem stepRunsDecodedCommand : Obligations.StepRunsDecodedCommand :=
  fun _ _ _ _ hp hf => step_command hp hf

/-- Settles O11: the wire values are computed for each kind of response. -/
theorem responseWireEncoding : Obligations.ResponseWireEncoding := by
  refine ⟨rfl, rfl, fun _ => ⟨rfl, rfl⟩, fun _ => ⟨rfl, rfl⟩, fun r => ?_⟩
  cases r <;> simp [Response.kindBits]

/-- Settles O12: with nothing pending the step is the state itself. -/
theorem idleBlockHoldsState : Obligations.IdleBlockHoldsState :=
  fun _ => step_idle

/-- Settles O19: the reset bank has the size it was made with and no fault recorded. -/
theorem resetStateMeetsInvariant : Obligations.ResetStateMeetsInvariant :=
  ⟨fun _ => inv_resetWith, inv_resetWith (by decide) (by decide)⟩

end Sys2Proof.Machine
end

section
/-! SUPPORT. Proofs of the statements about a command after another: what HEX spells, what is read after a write, and
what a clone shares with its source (42_digest.md R125, 43_copy_release.md R136 to R138, 70_reset_and_hazards.md
R188). -/

namespace Sys2Proof.Machine

/-! ## The two digits of a byte (R124, R125) -/

/-- `hexChar` reads a table of sixteen characters. -/
theorem hexChar_table (n : Nibble) :
    ([0x30, 0x31, 0x32, 0x33, 0x34, 0x35, 0x36, 0x37, 0x38, 0x39, 0x61, 0x62, 0x63, 0x64, 0x65, 0x66] :
      List Byte)[n.toNat]? = some (hexChar n) := by
  revert n
  decide

theorem highNibble_toNat (v : Byte) : (v.extractLsb' 4 4).toNat = v.toNat / 16 := by
  rw [BitVec.extractLsb'_toNat, Nat.shiftRight_eq_div_pow]
  exact Nat.mod_eq_of_lt (by have := v.isLt; omega)

theorem lowNibble_toNat (v : Byte) : (v.extractLsb' 0 4).toNat = v.toNat % 16 := by
  rw [BitVec.extractLsb'_toNat, Nat.shiftRight_zero]

theorem setWidth_byte_toNat (v : Byte) : (v.setWidth 16).toNat = v.toNat :=
  BitVec.toNat_setWidth_of_le (by decide)

/-! ## A CPY that does not fault -/

/-- A CPY that leaves no fault recorded has copied: its source was live and its destination free (R135). -/
theorem exec_cpy_unfaulted {s t : State} {d src : Nat} (h : exec (.cpy d src) s = .next t) (ht : t.faulted = false) :
    ∃ acc, s.LiveAt src acc ∧ s.FreeAt d ∧ t = respond .ok (writeAcc d acc s) := by
  obtain ⟨f, -, e⟩ | ⟨acc, hs, hd, e⟩ := execCpy_cases d src s
  · obtain rfl : raiseFault f s = t := Host.Outcome.next.inj (e.symm.trans h)
    simp at ht
  · exact ⟨acc, hs, hd, Host.Outcome.next.inj (h.symm.trans e)⟩

/-! ## The statements -/

/-- Settles O43: DIG answers the accumulator, HEX the two characters of its nibbles, and the nibbles are the quotient
and the remainder by 16. -/
theorem hexSpellsTheDigest : Obligations.HexSpellsTheDigest := by
  intro s a acc h
  refine ⟨acc.setWidth 16, hexData acc, exec_dig_live h, exec_hex_live h, ?_⟩
  rw [setWidth_byte_toNat, hexData_highByte, hexData_lowByte, ← highNibble_toNat, ← lowNibble_toNat]
  exact ⟨acc.isLt, hexChar_table _, hexChar_table _⟩

/-- Settles O51: what a slot holds after a write to it, or to the other slot of the two. -/
theorem readAfterWriteIsExact : Obligations.ReadAfterWriteIsExact := by
  intro s a d acc imm ha hd
  have hne : d ≠ a := fun e => ha.not_free (e ▸ hd)
  constructor
  · have live : (respond .ok (writeAcc a (reduce acc imm) s)).LiveAt a (reduce acc imm) := writeAcc_liveAt_same ha.lt
    have free : (respond .ok (writeAcc a (reduce acc imm) s)).FreeAt d := (List.getElem?_set_ne hne.symm).trans hd
    exact ⟨_, exec_upd_live imm ha, exec_dig_live live, exec_hex_live live, exec_cpy_copies live free⟩
  · have clone : (respond .ok (writeAcc d acc s)).LiveAt d acc := writeAcc_liveAt_same hd.lt
    have source : (respond .ok (writeAcc d acc s)).LiveAt a acc := writeAcc_liveAt_other hne ha
    exact ⟨_, _, exec_cpy_copies ha hd, exec_upd_live imm source, writeAcc_liveAt_other hne.symm clone,
      writeAcc_liveAt_same source.lt⟩

/-- Settles O52: both slots hold the accumulator that was copied, and a command writes at most the one slot it names. -/
theorem cloneIsEqualThenIndependent : Obligations.CloneIsEqualThenIndependent := by
  intro s t d src h ht
  obtain ⟨acc, hs, hd, -⟩ := exec_cpy_unfaulted h ht
  have hne : d ≠ src := fun e => hs.not_free (e ▸ hd)
  obtain ⟨clone, source⟩ := exec_cpy_both_live hs hd h
  refine ⟨hne, ⟨_, exec_dig_live clone, exec_dig_live source⟩, ⟨_, exec_hex_live clone, exec_hex_live source⟩, ?_⟩
  intro i u hu
  have others := (slotsDoNotAlias i t u hu).1
  exact ⟨fun hw => others src (by simpa [hw] using hne), fun hw => others d (by simpa [hw] using hne.symm)⟩

end Sys2Proof.Machine
end

section
/-! SUPPORT. Proofs of the statements about two blocks side by side (70_reset_and_hazards.md R190, 60_exceptions.md
R162 and R163): what a block does is settled by its slots, its STATUS fields and its stream. -/

namespace Sys2Proof.Machine

/-! ## What a command does depends on the slots alone (R190) -/

/-- In two states with the same slots a command raises the same fault, or returns the same response and leaves the same
slots; nothing else of the state is read. -/
def ActsAlike (i : Instr) (s t : State) : Prop :=
  (∃ f, exec i s = .next (raiseFault f s) ∧ exec i t = .next (raiseFault f t)) ∨
  (∃ r slots, exec i s = .next (respond r { s with slots := slots }) ∧
    exec i t = .next (respond r { t with slots := slots }))

section Alike
variable {s t : State} (h : s.slots = t.slots)
include h

theorem numInst_congr : s.numInst = t.numInst := congrArg List.length h

theorem liveAt_congr {a : Nat} {acc : Byte} (hs : s.LiveAt a acc) : t.LiveAt a acc := by
  rwa [State.LiveAt, ← h]

theorem freeAt_congr {a : Nat} (hs : s.FreeAt a) : t.FreeAt a := by
  rwa [State.FreeAt, ← h]

/-- A command that works on one live slot: its response and the slots it leaves are made from the accumulator and the
slots. -/
theorem actsAlike_withLive {i : Instr} {a : Nat} {answer : Byte → Response} {update : Byte → List Slot → List Slot}
    (hi : ∀ u, exec i u = withLive a (fun acc => respond (answer acc) { u with slots := update acc u.slots }) u) :
    ActsAlike i s t := by
  simp only [ActsAlike, hi]
  obtain hr | hf | ⟨acc, hl⟩ := slot_cases s a
  · exact .inl ⟨_, withLive_range _ hr, withLive_range _ (numInst_congr h ▸ hr)⟩
  · exact .inl ⟨_, withLive_free _ hf, withLive_free _ (freeAt_congr h hf)⟩
  · refine .inr ⟨answer acc, update acc s.slots, withLive_live _ hl, ?_⟩
    rw [h]
    exact withLive_live _ (liveAt_congr h hl)

theorem actsAlike_new (a : Nat) : ActsAlike (.new a) s t := by
  obtain hr | hf | ⟨acc, hl⟩ := slot_cases s a
  · exact .inl ⟨_, withFree_range _ hr, withFree_range _ (numInst_congr h ▸ hr)⟩
  · refine .inr ⟨.ok, s.slots.set a (some Config.init), exec_new_free hf, ?_⟩
    rw [h]
    exact exec_new_free (freeAt_congr h hf)
  · exact .inl ⟨_, exec_new_live hl, exec_new_live (liveAt_congr h hl)⟩

theorem actsAlike_cpy (d src : Nat) : ActsAlike (.cpy d src) s t := by
  have hn := numInst_congr h
  by_cases hr : s.numInst ≤ d ∨ s.numInst ≤ src
  · exact .inl ⟨_, exec_cpy_range hr, exec_cpy_range (hn ▸ hr)⟩
  obtain ⟨hd, hsrc⟩ : d < s.numInst ∧ src < s.numInst := by simpa using hr
  by_cases hne : d = src
  · subst hne
    exact .inl ⟨_, execCpy_same hd, execCpy_same (hn ▸ hd)⟩
  obtain hs | hs | ⟨acc, hs⟩ := slot_cases s src
  · exact absurd hsrc (Nat.not_lt.mpr hs)
  · exact .inl ⟨_, execCpy_source_free hd hne hs, execCpy_source_free (hn ▸ hd) hne (freeAt_congr h hs)⟩
  obtain hv | hv | ⟨v, hv⟩ := slot_cases s d
  · exact absurd hd (Nat.not_lt.mpr hv)
  · refine .inr ⟨.ok, s.slots.set d (some acc), exec_cpy_copies hs hv, ?_⟩
    rw [h]
    exact exec_cpy_copies (liveAt_congr h hs) (freeAt_congr h hv)
  · exact .inl ⟨_, execCpy_dest_live hne hs hv, execCpy_dest_live hne (liveAt_congr h hs) (liveAt_congr h hv)⟩

theorem exec_actsAlike (i : Instr) : ActsAlike i s t := by
  cases i with
  | new a => exact actsAlike_new h a
  | upd a imm =>
    exact actsAlike_withLive h (answer := fun _ => .ok) (update := fun acc σ => σ.set a (some (reduce acc imm)))
      fun _ => rfl
  | rejText =>
    exact actsAlike_withLive h (answer := fun _ => .err InputTypeCause.text.code) (update := fun _ σ => σ) fun _ => rfl
  | rejOther =>
    exact actsAlike_withLive h (answer := fun _ => .err InputTypeCause.other.code) (update := fun _ σ => σ) fun _ => rfl
  | dig =>
    exact actsAlike_withLive h (answer := fun acc => .data (acc.setWidth 16)) (update := fun _ σ => σ) fun _ => rfl
  | hex => exact actsAlike_withLive h (answer := fun acc => .data (hexData acc)) (update := fun _ σ => σ) fun _ => rfl
  | cpy d src => exact actsAlike_cpy h d src
  | rel a => exact actsAlike_withLive h (answer := fun _ => .ok) (update := fun _ σ => σ.set a none) fun _ => rfl
  | attrDsz =>
    exact actsAlike_withLive h (answer := fun _ => .data Config.digestSize) (update := fun _ σ => σ) fun _ => rfl
  | attrBsz =>
    exact actsAlike_withLive h (answer := fun _ => .data Config.blockSize) (update := fun _ σ => σ) fun _ => rfl

end Alike

/-! ## The statements -/

/-- Settles O58: the frame looks at FAULTED and at the word, a refusal at FCODE, and a command at the slots. -/
theorem oneAgentClassAndOneMode : Obligations.OneAgentClassAndOneMode := by
  intro s t w restS restT hps hpt hslots hfaulted hfcode
  by_cases hf : s.faulted = true
  · refine ⟨s.slots, s.faulted, s.fcode, .err (s.fcode.setWidth 8), step_refused hps hf, ?_⟩
    rw [hslots, hfaulted, hfcode]
    exact step_refused hpt (hfaulted ▸ hf)
  replace hf : s.faulted = false := by simpa using hf
  have hft : t.faulted = false := hfaulted ▸ hf
  cases hd : decode w with
  | error e =>
    refine ⟨s.slots, true, FatalFault.illegalCommand.code.setWidth 4, .err FatalFault.illegalCommand.code,
      step_illegal hps hf hd, ?_⟩
    rw [hslots]
    exact step_illegal hpt hft hd
  | ok i =>
    rw [step_command hps hf hd, step_command hpt hft hd]
    have halike : ({ s with pending := restS } : State).slots = ({ t with pending := restT } : State).slots := hslots
    obtain ⟨f, es, et⟩ | ⟨r, slots, es, et⟩ := exec_actsAlike halike i
    · refine ⟨s.slots, true, f.code.setWidth 4, .err f.code, es, ?_⟩
      rw [hslots]
      exact et
    · refine ⟨slots, s.faulted, s.fcode, r, es, ?_⟩
      rw [hfaulted, hfcode]
      exact et

/-! ## Runs of equal blocks (R190) -/

/-- The STATUS word is made of the slots and the two STATUS fields (R28). -/
theorem SameBlock.statusWord_eq {s t : State} (h : SameBlock s t) : statusWord s = statusWord t := by
  rw [statusWord, statusWord, ninstM1, ninstM1, numInst_congr h.slots, h.fcode, h.faulted]

/-- One step of two equal blocks: they return the same and end equal. -/
theorem step_sameBlock {s t s' : State} (h : SameBlock s t) (hstep : step s = .next s') :
    ∃ t' rs vs, step t = .next t' ∧ SameBlock s' t' ∧
      s'.responses = s.responses ++ rs ∧ t'.responses = t.responses ++ rs ∧
      s'.statusReads = s.statusReads ++ vs ∧ t'.statusReads = t.statusReads ++ vs := by
  obtain ⟨hslots, hfaulted, hfcode, hpending⟩ := h
  rcases hp : s.pending with _ | ⟨e, rest⟩
  · rw [step_idle hp] at hstep
    cases hstep
    exact ⟨t, [], [], step_idle (hpending ▸ hp), ⟨hslots, hfaulted, hfcode, hpending⟩, by simp⟩
  have hpt : t.pending = e :: rest := hpending ▸ hp
  cases e with
  | command w =>
    obtain ⟨slots, faulted, fcode, r, es, et⟩ := oneAgentClassAndOneMode s t w rest rest hp hpt hslots hfaulted hfcode
    obtain rfl := Host.Outcome.next.inj (hstep.symm.trans es)
    exact ⟨_, [r], [], et, ⟨rfl, rfl, rfl, rfl⟩, rfl, rfl, by simp⟩
  | readStatus =>
    obtain rfl := Host.Outcome.next.inj (hstep.symm.trans (step_readStatus hp))
    have hpopped : SameBlock { s with pending := rest } { t with pending := rest } := ⟨hslots, hfaulted, hfcode, rfl⟩
    refine ⟨_, [], [statusWord { s with pending := rest }], step_readStatus hpt, ⟨hslots, hfaulted, hfcode, rfl⟩, ?_⟩
    simp [hpopped.statusWord_eq]
  | reset =>
    obtain rfl := Host.Outcome.next.inj (hstep.symm.trans (step_reset hp))
    refine ⟨_, [], [], step_reset hpt, ⟨?_, rfl, rfl, rfl⟩, by simp⟩
    simp [hslots]

/-- Settles O57, by induction on the number of steps: the responses and STATUS words of a run are those of its first
step and then those of the rest. -/
theorem blocksWithoutHiddenState : Obligations.BlocksWithoutHiddenState := by
  intro n
  induction n with
  | zero =>
    intro s t s' h hrun
    obtain rfl : s = s' := Option.some.inj hrun
    exact ⟨t, [], [], rfl, h, by simp⟩
  | succ n ih =>
    intro s t s' h hrun
    obtain ⟨u, hu⟩ := step_total s
    obtain ⟨v, rs, vs, hv, huv, hsr, htr, hsv, htv⟩ := step_sameBlock h hu
    rw [runSteps_succ hu] at hrun
    obtain ⟨t', rs', vs', hrun', hend, hsr', htr', hsv', htv'⟩ := ih u v s' huv hrun
    refine ⟨t', rs ++ rs', vs ++ vs', (runSteps_succ hv).trans hrun', hend, ?_⟩
    simp [hsr', htr', hsv', htv', hsr, htr, hsv, htv]

end Sys2Proof.Machine
end

section
/-! SUPPORT. Proofs of the statements about runs (10_state.md R25, 60_exceptions.md R171): accumulators stand for the
histories of their engines through every command, every list of commands from reset, and every session of the host. -/

namespace Sys2Proof.Machine

/-! ## What was true of the slots when a command did not fault -/

section Unfaulted
variable {a : Nat} {s t : State}

theorem withLive_unfaulted {body : Byte → State} (h : withLive a body s = .next t) (ht : t.faulted = false) :
    ∃ acc, s.LiveAt a acc ∧ t = body acc := by
  obtain ⟨-, e⟩ | ⟨-, e⟩ | ⟨acc, hl, e⟩ := withLive_cases a body s
  · obtain rfl := Host.Outcome.next.inj (h.symm.trans e)
    simp at ht
  · obtain rfl := Host.Outcome.next.inj (h.symm.trans e)
    simp at ht
  · exact ⟨acc, hl, Host.Outcome.next.inj (h.symm.trans e)⟩

theorem withFree_unfaulted {body : State} (h : withFree a body s = .next t) (ht : t.faulted = false) :
    s.FreeAt a ∧ t = body := by
  obtain ⟨-, e⟩ | ⟨hfree, e⟩ | ⟨acc, -, e⟩ := withFree_cases a body s
  · obtain rfl := Host.Outcome.next.inj (h.symm.trans e)
    simp at ht
  · exact ⟨hfree, Host.Outcome.next.inj (h.symm.trans e)⟩
  · obtain rfl := Host.Outcome.next.inj (h.symm.trans e)
    simp at ht

end Unfaulted

/-! ## Accumulators and histories (R25) -/

theorem fold_append (acc : Byte) (front back : List Byte) : fold acc (front ++ back) = fold (fold acc front) back :=
  List.foldl_append

/-- An engine that has consumed some bytes goes on from their CRC (R84, R85). -/
theorem crc_append (bytes data : List Byte) : crc (bytes ++ data) = fold (crc bytes) data :=
  fold_append Config.init bytes data

section Tracks
variable {h : Histories} {s t : State} {a : Nat} {acc : Byte} {bytes : List Byte}

theorem Tracks.length (hs : Tracks h s) : h.length = s.numInst := by
  rw [State.numInst, show s.slots = _ from hs, List.length_map]

theorem Tracks.slot (hs : Tracks h s) (a : Nat) : s.slots[a]? = h[a]?.map (Option.map crc) := by
  rw [show s.slots = _ from hs, List.getElem?_map]

/-- An engine's slot is live with the CRC of the engine's bytes. -/
theorem Tracks.liveAt (hs : Tracks h s) (ha : h[a]? = some (some bytes)) : s.LiveAt a (crc bytes) := by
  simp [State.LiveAt, hs.slot, ha]

theorem Tracks.freeAt (hs : Tracks h s) (ha : h[a]? = some none) : s.FreeAt a := by
  simp [State.FreeAt, hs.slot, ha]

theorem consumed_of_engine (ha : h[a]? = some (some bytes)) : consumed h a = bytes := by
  simp [consumed, ha]

/-- A live slot holds the CRC of what its engine has consumed. -/
theorem Tracks.acc_eq (hs : Tracks h s) (ha : s.LiveAt a acc) : acc = crc (consumed h a) := by
  rw [State.LiveAt, hs.slot] at ha
  obtain ⟨engine, he, hmap⟩ := Option.map_eq_some_iff.mp ha
  obtain ⟨bytes, rfl, rfl⟩ := Option.map_eq_some_iff.mp hmap
  rw [consumed_of_engine he]

/-- Writing a slot and the history of the same slot keeps the two in step. -/
theorem Tracks.set (hs : Tracks h s) {engine : Option (List Byte)}
    (ht : t.slots = s.slots.set a (engine.map crc)) : Tracks (h.set a engine) t := by
  rw [Tracks, ht, show s.slots = _ from hs, List.map_set]

/-- The slots are all that tracking is about. -/
theorem Tracks.of_slots (hs : Tracks h s) (ht : t.slots = s.slots) : Tracks h t := ht.trans hs

end Tracks

theorem tracks_resetWith (n : Nat) : Tracks (List.replicate n none) (State.resetWith n) := by
  simp [Tracks]

/-- Settles O54: each command that does not fault writes one slot as it writes that slot's history, or writes
neither. -/
theorem commandKeepsHistories : Obligations.CommandKeepsHistories := by
  intro h s t i hs hexec ht
  cases i with
  | new a =>
    obtain ⟨-, rfl⟩ := withFree_unfaulted hexec ht
    exact hs.set (engine := some []) rfl
  | upd a imm =>
    obtain ⟨acc, hl, rfl⟩ := withLive_unfaulted hexec ht
    refine hs.set (engine := some (consumed h a ++ [imm])) ?_
    rw [Option.map_some, crc_append, ← hs.acc_eq hl]
    rfl
  | cpy d src =>
    obtain ⟨acc, hl, -, rfl⟩ := exec_cpy_unfaulted hexec ht
    refine hs.set (engine := some (consumed h src)) ?_
    rw [Option.map_some, ← hs.acc_eq hl]
    rfl
  | rel a =>
    obtain ⟨acc, -, rfl⟩ := withLive_unfaulted hexec ht
    exact hs.set (engine := none) rfl
  | rejText | rejOther | dig | hex | attrDsz | attrBsz =>
    obtain ⟨acc, -, rfl⟩ := withLive_unfaulted hexec ht
    exact hs.of_slots rfl

/-! ## Commands sent one after another -/

/-- The events of a list of commands, as the host presents them. -/
def commandEvents (is : List Instr) : List PortEvent := is.map fun i => .command (encode i)

@[simp] theorem commandEvents_nil : commandEvents [] = [] := rfl

@[simp] theorem commandEvents_cons (i : Instr) (is : List Instr) :
    commandEvents (i :: is) = .command (encode i) :: commandEvents is := rfl

@[simp] theorem commandEvents_append (is js : List Instr) :
    commandEvents (is ++ js) = commandEvents is ++ commandEvents js := List.map_append

/-- The step of a well-formed command that is sent encoded (R157). -/
theorem step_encoded {s : State} {i : Instr} {rest : List PortEvent} (hp : s.pending = .command (encode i) :: rest)
    (hf : s.faulted = false) (hi : i.wellFormed = true) : step s = exec i { s with pending := rest } :=
  step_command hp hf (decode_encode hi)

/-- A step on an encoded command takes it off the stream, returns one response, and unless a fault is recorded then,
none was recorded before and the histories go on being tracked. -/
theorem step_encoded_tracks {s : State} {i : Instr} {rest : List PortEvent}
    (hp : s.pending = .command (encode i) :: rest) (hi : i.wellFormed = true) :
    ∃ t, step s = .next t ∧ t.pending = rest ∧ t.responses.length = s.responses.length + 1 ∧
      (t.faulted = false → s.faulted = false ∧ ∀ h, Tracks h s → Tracks (histAfter h i) t) := by
  by_cases hf : s.faulted = true
  · exact ⟨_, step_refused hp hf, rfl, by simp, fun ht => absurd ht (by simp [hf])⟩
  replace hf : s.faulted = false := by simpa using hf
  obtain ⟨t, ht⟩ := exec_total i { s with pending := rest }
  obtain ⟨⟨r, hr⟩, hpend, -, -⟩ := commandTouchesPortByOneResponse i _ t ht
  refine ⟨t, (step_encoded hp hf hi).trans ht, hpend, by simp [hr], fun hft => ⟨hf, fun h hs => ?_⟩⟩
  have popped : Tracks h { s with pending := rest } := hs.of_slots rfl
  exact commandKeepsHistories h _ t i popped ht hft

/-- A run over encoded commands returns one response for each, and unless a fault is recorded at its end, none was
recorded before it and the histories are tracked through it. -/
theorem runSteps_commandEvents_tracks {is : List Instr} {s : State} {rest : List PortEvent}
    (hp : s.pending = commandEvents is ++ rest) (his : ∀ i ∈ is, i.wellFormed = true) :
    ∃ t, runSteps is.length s = some t ∧ t.responses.length = s.responses.length + is.length ∧
      (t.faulted = false → s.faulted = false ∧ ∀ h, Tracks h s → Tracks (is.foldl histAfter h) t) := by
  induction is generalizing s with
  | nil => exact ⟨s, rfl, rfl, fun hf => ⟨hf, fun _ => id⟩⟩
  | cons i is ih =>
    obtain ⟨u, hstep, hpend, hlen, hu⟩ := step_encoded_tracks (rest := commandEvents is ++ rest) hp (his i (by simp))
    obtain ⟨t, hrun, hlen', ht⟩ := ih hpend fun j hj => his j (by simp [hj])
    refine ⟨t, (runSteps_succ hstep).trans hrun, ?_, fun hft => ?_⟩
    · rw [hlen', hlen, List.length_cons]
      omega
    · obtain ⟨huf, htracks⟩ := ht hft
      obtain ⟨hsf, hfirst⟩ := hu huf
      exact ⟨hsf, fun h hs => htracks _ (hfirst h hs)⟩

/-- Settles O55: a run of commands from reset, where no slot has an engine, tracks the histories, and two slots
with the same history hold the CRC of it. -/
theorem runFromResetTracksHistories : Obligations.RunFromResetTracksHistories := by
  intro n is _ _ his
  have hp : (send is (State.resetWith n)).pending = commandEvents is ++ [] := by simp [commandEvents]
  obtain ⟨t, hrun, hlen, ht⟩ := runSteps_commandEvents_tracks hp his
  refine ⟨t, hrun, by simpa using hlen, fun hf => ?_⟩
  have tracked := (ht hf).2 _ ((tracks_resetWith n).of_slots (t := send is (State.resetWith n)) rfl)
  exact ⟨tracked, fun j k bytes hj hk => ⟨tracked.liveAt hj, tracked.liveAt hk⟩⟩

/-! ## Sessions of source operations (R171) -/

/-- The block has served the host: no fault is recorded, these responses came, this is left on the stream, and the
engines are these. -/
structure Served (s : State) (rs : List Response) (rest : List PortEvent) (h : Histories) (t : State) : Prop where
  faulted : t.faulted = false
  fcode : t.fcode = s.fcode
  pending : t.pending = rest
  statusReads : t.statusReads = s.statusReads
  responses : t.responses = s.responses ++ rs
  tracks : Tracks h t

section Sessions
variable {h : Histories} {s : State} {rest : List PortEvent}

/-- An operation that is one command which returns its response and raises no fault. -/
theorem served_command {i : Instr} {r : Response} {slots : List Slot} (hs : Tracks h s) (hf : s.faulted = false)
    (hp : s.pending = commandEvents [i] ++ rest) (hi : i.wellFormed = true)
    (hexec : exec i { s with pending := rest } = .next (respond r { s with pending := rest, slots := slots })) :
    ∃ t, runSteps 1 s = some t ∧ Served s [r] rest (histAfter h i) t := by
  have popped : Tracks h { s with pending := rest } := hs.of_slots rfl
  exact ⟨_, runSteps_succ ((step_encoded hp hf hi).trans hexec), hf, rfl, rfl, rfl, rfl,
    commandKeepsHistories h _ _ i popped hexec hf⟩

/-- `update(data)` is a run of UPD commands (R104). -/
theorem served_updateCommands {k : Nat} {bytes data : List Byte} (hs : Tracks h s) (hf : s.faulted = false)
    (hp : s.pending = commandEvents (updateCommands k data) ++ rest) (hk : k < 16)
    (hengine : h[k]? = some (some bytes)) :
    ∃ t, runSteps (updateCommands k data).length s = some t ∧
      Served s (data.map fun _ => .ok) rest (h.set k (some (consumed h k ++ data))) t := by
  have hrun := runSteps_updateCommands hk hf (hs.liveAt hengine) hp
  rw [updateCommands, List.length_map]
  refine ⟨_, hrun, hf, rfl, rfl, rfl, ?_, ?_⟩
  · simp
  · refine hs.set (engine := some (consumed h k ++ data)) ?_
    rw [Option.map_some, crc_append, consumed_of_engine hengine]

/-- One operation of the source: the mapped commands return the source's result and leave its engines. -/
theorem served_call {c : SourceCall} (hs : Tracks h s) (hn : s.numInst ≤ 16) (hf : s.faulted = false)
    (hp : s.pending = commandEvents c.commands ++ rest) (hc : c.Allowed h) :
    ∃ t, runSteps c.commands.length s = some t ∧ Served s (c.results h) rest (c.after h) t := by
  have popped : Tracks h { s with pending := rest } := hs.of_slots rfl
  have fits {k : Nat} {engine : Option (List Byte)} (hk : h[k]? = some engine) : k < 16 :=
    ((List.getElem?_eq_some_iff.mp hk).1.trans_eq hs.length).trans_le hn
  have wf {k : Nat} {engine : Option (List Byte)} (hk : h[k]? = some engine) : slotFits k = true :=
    decide_eq_true (fits hk)
  cases c with
  | new k => exact served_command hs hf hp (wf hc) (exec_new_free (popped.freeAt hc))
  | update k x =>
    obtain ⟨bytes, hk⟩ := hc
    cases x with
    | bytes data => exact served_updateCommands hs hf hp (fits hk) hk
    | text => exact served_command hs hf hp (wf hk) (exec_rejText_live (popped.liveAt hk))
    | other => exact served_command hs hf hp (wf hk) (exec_rejOther_live (popped.liveAt hk))
  | digest k =>
    obtain ⟨bytes, hk⟩ := hc
    rw [SourceCall.results, consumed_of_engine hk]
    exact served_command hs hf hp (wf hk) (exec_dig_live (popped.liveAt hk))
  | hexdigest k =>
    obtain ⟨bytes, hk⟩ := hc
    rw [SourceCall.results, consumed_of_engine hk]
    exact served_command hs hf hp (wf hk) (exec_hex_live (popped.liveAt hk))
  | copy j k =>
    obtain ⟨hj, bytes, hk⟩ := hc
    exact served_command hs hf hp (Bool.and_eq_true_iff.mpr ⟨wf hj, wf hk⟩)
      (exec_cpy_copies (popped.liveAt hk) (popped.freeAt hj))
  | digestSize k =>
    obtain ⟨bytes, hk⟩ := hc
    exact served_command hs hf hp (wf hk) (exec_attrDsz_live (popped.liveAt hk))
  | blockSize k =>
    obtain ⟨bytes, hk⟩ := hc
    exact served_command hs hf hp (wf hk) (exec_attrBsz_live (popped.liveAt hk))
  | drop k =>
    obtain ⟨bytes, hk⟩ := hc
    exact served_command hs hf hp (wf hk) (exec_rel_live (popped.liveAt hk))

/-- An operation of the source keeps the number of slots that engines can have. -/
theorem length_after (c : SourceCall) (h : Histories) : (c.after h).length = h.length := by
  cases c with
  | update k x => cases x <;> simp [SourceCall.after]
  | new | copy | drop => simp [SourceCall.after]
  | digest | hexdigest | digestSize | blockSize => rfl

/-- A whole session, one operation after another. -/
theorem served_session {cs : List SourceCall} (hs : Tracks h s) (hn : s.numInst ≤ 16) (hf : s.faulted = false)
    (hp : s.pending = commandEvents (sessionCommands cs) ++ rest) (hcs : SessionAllowed h cs) :
    ∃ t, runSteps (sessionCommands cs).length s = some t ∧
      Served s (sessionResults h cs) rest (sessionAfter h cs) t := by
  induction cs generalizing h s with
  | nil => exact ⟨s, rfl, hf, rfl, hp, rfl, (List.append_nil _).symm, hs⟩
  | cons c cs ih =>
    obtain ⟨hc, hcs⟩ := hcs
    have hcommands : sessionCommands (c :: cs) = c.commands ++ sessionCommands cs := List.flatMap_cons
    rw [hcommands, commandEvents_append, List.append_assoc] at hp
    obtain ⟨u, hrun, hu⟩ := served_call hs hn hf hp hc
    have hun : u.numInst ≤ 16 := by rwa [← hu.tracks.length, length_after, hs.length]
    obtain ⟨t, hrun', ht⟩ := ih hu.tracks hun hu.faulted hu.pending hcs
    refine ⟨t, ?_, ht.faulted, ht.fcode.trans hu.fcode, ht.pending, ht.statusReads.trans hu.statusReads, ?_, ht.tracks⟩
    · rw [hcommands, List.length_append, runSteps_add, hrun]
      exact hrun'
    · rw [ht.responses, hu.responses, List.append_assoc]
      rfl

end Sessions

/-- Settles O56, by induction on the session: each operation finds its slots as the host's duty says, so its commands
do not fault, and it leaves the engines that the next operation starts from. -/
theorem hostSessionsRefineSource : Obligations.HostSessionsRefineSource := by
  intro h s cs hs hn hf hp hcs
  have hsent : (send (sessionCommands cs) s).pending = commandEvents (sessionCommands cs) ++ [] := by
    simp [hp, commandEvents]
  obtain ⟨t, hrun, ht⟩ := served_session (s := send (sessionCommands cs) s) (hs.of_slots rfl) hn hf hsent hcs
  exact ⟨t, hrun, ht.faulted, ht.fcode, ht.pending, ht.statusReads, ht.responses, ht.tracks⟩

end Sys2Proof.Machine
end

section
/-! SUPPORT. Proofs of the statements about the reducer (40_reducer.md): the loop bit by bit, linearity and
bijectivity, the printed table, the CRC as a fold. -/

namespace Sys2Proof.Machine

/-! ## One iteration of the loop (R80, R81) -/

/-- Bit `k` of one iteration: the bit below it, and bit 7 wherever `POLY` has a one. -/
theorem shiftStep_getLsbD (a : Byte) (k : Nat) :
    (shiftStep a).getLsbD k =
      ((decide (k < 8) && !decide (k < 1) && a.getLsbD (k - 1)) ^^ (a.getLsbD 7 && Config.poly.getLsbD k)) := by
  have hmsb : a.msb = a.getLsbD 7 := BitVec.msb_eq_getLsbD_last a
  rw [shiftStep, hmsb]
  split <;> simp_all

/-- The loop body is linear over GF(2), since each bit is (R86). -/
theorem shiftStep_xor (x y : Byte) : shiftStep (x ^^^ y) = shiftStep x ^^^ shiftStep y := by
  apply BitVec.eq_of_getLsbD_eq
  intro k _
  simp only [BitVec.getLsbD_xor, shiftStep_getLsbD, Bool.and_xor_distrib_left, Bool.and_xor_distrib_right,
    Bool.xor_assoc, Bool.xor_left_comm]

/-- The loop body loses nothing: bit 7 comes out as bit 0, and it tells whether `POLY` was added to the others (R87). -/
theorem shiftStep_injective : Function.Injective shiftStep := by
  intro x y h
  have hbit (k : Nat) := congrArg (fun z : Byte => z.getLsbD k) h
  simp only [shiftStep_getLsbD] at hbit
  have htop : x.getLsbD 7 = y.getLsbD 7 := by simpa [Config.poly] using hbit 0
  apply BitVec.eq_of_getLsbD_eq
  intro k hk
  obtain rfl | hlt : k = 7 ∨ k < 7 := by omega
  · exact htop
  · have hbelow := hbit (k + 1)
    rw [htop, Bool.xor_left_inj] at hbelow
    have hin : k + 1 < 8 := by omega
    simpa [hin] using hbelow

/-! ## The loop, eight times -/

theorem shiftSteps_xor (n : Nat) (x y : Byte) : shiftSteps n (x ^^^ y) = shiftSteps n x ^^^ shiftSteps n y := by
  induction n generalizing x y with
  | zero => rfl
  | succ n ih => rw [shiftSteps, shiftStep_xor, ih]; rfl

theorem shiftSteps_injective (n : Nat) : Function.Injective (shiftSteps n) := by
  induction n with
  | zero => exact fun _ _ => id
  | succ n ih => exact ih.comp shiftStep_injective

/-- `T[x]` of R82 is the loop on `x`. -/
theorem reduce_zero_left (x : Byte) : reduce 0x00 x = shiftSteps 8 x := by
  simp [reduce]

theorem reduce_zero_zero : reduce 0x00 0x00 = 0x00 := reduce_self 0x00

theorem reduce_injective_right (acc : Byte) : Function.Injective (reduce acc) :=
  fun _ _ h => (BitVec.xor_right_inj acc).mp (shiftSteps_injective 8 h)

theorem reduce_injective_left (b : Byte) : Function.Injective fun acc => reduce acc b :=
  fun _ _ h => (BitVec.xor_left_inj b).mp (shiftSteps_injective 8 h)

/-- There are finitely many bytes, so distinct results for distinct bytes leave none out. -/
theorem bijective_of_injective {f : Byte → Byte} (h : Function.Injective f) : Function.Bijective f := by
  have : Finite Byte := Finite.of_injective BitVec.toFin fun _ _ => BitVec.toFin_inj.mp
  exact Finite.injective_iff_bijective.mp h

/-! ## The printed table (R82) -/

/-- The table in the order of its index. -/
theorem crcTable_eq : crcTable = (List.range 256).map fun n => shiftSteps 8 (BitVec.ofNat 8 n) := by
  decide +kernel

theorem crcTable_getElem (x : Byte) : crcTable[x.toNat]? = some (shiftSteps 8 x) := by
  simp [crcTable_eq, List.getElem?_range x.isLt]

/-! ## The CRC of a sequence (R84, R88, R89) -/

theorem fold_zeros (k : Nat) : fold 0x00 (List.replicate k 0x00) = 0x00 := by
  induction k with
  | zero => rfl
  | succ k ih => rw [List.replicate_succ, fold, List.foldl_cons, reduce_zero_zero]; exact ih

/-! ## The statements -/

/-- Settles O29: the general bit of an iteration, at each of the eight places. -/
theorem shiftStepBits : Obligations.ShiftStepBits := by
  intro a
  simp only [shiftStep_getLsbD]
  refine ⟨fun k hlo hhi => ?_, by simp [Config.poly], by simp [Config.poly], by simp [Config.poly]⟩
  have hpoly : Config.poly.getLsbD k = false := by interval_cases k <;> rfl
  have h8 : k < 8 := by omega
  have h1 : k ≠ 0 := by omega
  rw [hpoly]
  simp [h8, h1]

/-- Settles O30: both structures look at `acc ^ b` alone, and the table holds the loop's result for each of its
values. -/
theorem tableReducerAgreesWithLoop : Obligations.TableReducerAgreesWithLoop :=
  ⟨by simp [crcTable_eq], fun acc b => crcTable_getElem (acc ^^^ b)⟩

/-- Settles O31: an iteration is linear, so eight are. -/
theorem reducerIsLinear : Obligations.ReducerIsLinear := by
  simp only [Obligations.ReducerIsLinear, reduce_zero_left]
  exact ⟨shiftSteps_xor 8, by decide, shiftSteps_xor 8⟩

/-- Settles O32: an iteration is injective, so eight are, and so is adding the other operand before them. -/
theorem reducerIsBijective : Obligations.ReducerIsBijective :=
  ⟨by decide, fun acc => bijective_of_injective (reduce_injective_right acc),
    fun b => bijective_of_injective (reduce_injective_left b)⟩

/-- Settles O34: a fold over two pieces. -/
theorem chunkingLaw : Obligations.ChunkingLaw :=
  fun acc front back => (fold_append acc front back).symm

/-- Settles O33: `crc` and `fold` are the left fold, one byte at the end being its last step. -/
theorem crcIsLeftFold : Obligations.CrcIsLeftFold :=
  ⟨rfl, fun bytes b => fold_append _ bytes [b], fun _ => rfl, fun acc b bytes => fold_append acc bytes [b],
    fun _ => rfl⟩

/-- Settles O35: the last step reduces the CRC by itself, and zero bytes keep a new accumulator at zero. -/
theorem residueAndLeadingZeros : Obligations.ResidueAndLeadingZeros := by
  refine ⟨fun bytes => ?_, fun k bytes => ?_⟩
  · exact (fold_append Config.init bytes [crc bytes]).trans (reduce_self (crc bytes))
  · rw [crc, fold_append, Config.init, fold_zeros]
    rfl

end Sys2Proof.Machine
end

section
/-! SUPPORT. Proof of the statement that the CRC is a polynomial remainder (40_reducer.md R92): one iteration of the
loop is a multiplication by `x` modulo the generator. -/

namespace Sys2Proof.Machine

open Polynomial

/-- The coefficient that a bit stands for. -/
def bitCoeff (c : Bool) : ZMod 2 := if c then 1 else 0

/-- The polynomial of a byte, bit 7 being the highest power (R92). -/
noncomputable def bytePoly (b : Byte) : (ZMod 2)[X] := ∑ k : Fin 8, if b.getLsbD k then X ^ (k : Nat) else 0

/-- The polynomial of a byte sequence, the first byte being the highest (R92). -/
noncomputable def messagePoly (bytes : List Byte) : (ZMod 2)[X] := bytes.foldl (fun m b => m * X ^ 8 + bytePoly b) 0

/-- The generator `x^8 + x^2 + x + 1` (R92). -/
noncomputable def generator : (ZMod 2)[X] := X ^ 8 + X ^ 2 + X + 1

theorem generator_degree : generator.degree = 8 := by
  unfold generator
  compute_degree!

theorem generator_monic : generator.Monic := by
  unfold generator
  monicity!

/-! ## Bits and bytes as polynomials -/

theorem bitCoeff_xor (c d : Bool) : bitCoeff (c ^^ d) = bitCoeff c + bitCoeff d := by
  revert c d
  decide

theorem bytePoly_eq (b : Byte) : bytePoly b = ∑ k : Fin 8, C (bitCoeff (b.getLsbD k)) * X ^ (k : Nat) := by
  simp [bytePoly, bitCoeff, apply_ite C]

theorem bytePoly_expand (b : Byte) : bytePoly b =
    C (bitCoeff (b.getLsbD 0)) * X ^ 0 + C (bitCoeff (b.getLsbD 1)) * X ^ 1 + C (bitCoeff (b.getLsbD 2)) * X ^ 2 +
    C (bitCoeff (b.getLsbD 3)) * X ^ 3 + C (bitCoeff (b.getLsbD 4)) * X ^ 4 + C (bitCoeff (b.getLsbD 5)) * X ^ 5 +
    C (bitCoeff (b.getLsbD 6)) * X ^ 6 + C (bitCoeff (b.getLsbD 7)) * X ^ 7 :=
  (bytePoly_eq b).trans (Fin.sum_univ_eight _)

theorem bytePoly_xor (x y : Byte) : bytePoly (x ^^^ y) = bytePoly x + bytePoly y := by
  simp only [bytePoly_eq, BitVec.getLsbD_xor, bitCoeff_xor, C_add, add_mul, Finset.sum_add_distrib]

theorem bytePoly_zero : bytePoly 0#8 = 0 := by
  simp [bytePoly]

theorem bytePoly_degree_lt (b : Byte) : (bytePoly b).degree < generator.degree := by
  rw [bytePoly_eq, generator_degree]
  exact degree_sum_fin_lt fun k : Fin 8 => bitCoeff (b.getLsbD k)

/-! ## The loop as a multiplication -/

/-- Where bit 7 is shifted out the generator has been added, which over GF(2) takes `x^8` away. -/
theorem bytePoly_shiftStep (a : Byte) :
    bytePoly (shiftStep a) = bytePoly a * X + C (bitCoeff (a.getLsbD 7)) * generator := by
  obtain ⟨hhigh, h2, h1, h0⟩ := shiftStepBits a
  have htwo : (2 : (ZMod 2)[X]) = 0 := CharTwo.two_eq_zero
  rw [bytePoly_expand, bytePoly_expand, h0, h1, h2, hhigh 3 (by decide) (by decide), hhigh 4 (by decide) (by decide),
    hhigh 5 (by decide) (by decide), hhigh 6 (by decide) (by decide), hhigh 7 (by decide) (by decide), generator]
  simp only [bitCoeff_xor, C_add, Nat.reduceSub]
  linear_combination (-C (bitCoeff (a.getLsbD 7)) * X ^ 8) * htwo

/-- `n` iterations multiply by `x^n`, modulo the generator. -/
theorem generator_dvd_shiftSteps (n : Nat) (a : Byte) :
    generator ∣ bytePoly a * X ^ n - bytePoly (shiftSteps n a) := by
  induction n generalizing a with
  | zero => simp [shiftSteps]
  | succ n ih =>
    have hfirst : bytePoly a * X ^ (n + 1) - bytePoly (shiftSteps (n + 1) a) =
        bytePoly (shiftStep a) * X ^ n - bytePoly (shiftSteps n (shiftStep a)) -
          generator * (C (bitCoeff (a.getLsbD 7)) * X ^ n) := by
      rw [bytePoly_shiftStep, shiftSteps]
      ring
    rw [hfirst]
    exact dvd_sub (ih _) (dvd_mul_right _ _)

/-! ## Byte sequences -/

theorem messagePoly_append (bytes : List Byte) (b : Byte) :
    messagePoly (bytes ++ [b]) = messagePoly bytes * X ^ 8 + bytePoly b := by
  simp [messagePoly]

/-- The CRC and `M(x) * x^8` differ by a multiple of the generator: a byte more is added and then
multiplied by `x^8`. -/
theorem generator_dvd_crc (bytes : List Byte) : generator ∣ messagePoly bytes * X ^ 8 - bytePoly (crc bytes) := by
  induction bytes using List.reverseRecOn with
  | nil => simp [messagePoly, crc, fold, Config.init, bytePoly_zero]
  | append_singleton bytes b ih =>
    have hlast : crc (bytes ++ [b]) = shiftSteps 8 (crc bytes ^^^ b) := fold_append Config.init bytes [b]
    have hsplit : messagePoly (bytes ++ [b]) * X ^ 8 - bytePoly (crc (bytes ++ [b])) =
        (messagePoly bytes * X ^ 8 - bytePoly (crc bytes)) * X ^ 8 +
          (bytePoly (crc bytes ^^^ b) * X ^ 8 - bytePoly (shiftSteps 8 (crc bytes ^^^ b))) := by
      rw [messagePoly_append, hlast, bytePoly_xor]
      ring
    rw [hsplit]
    exact dvd_add (ih.mul_right _) (generator_dvd_shiftSteps 8 _)

/-- Settles O36: the CRC is congruent to `M(x) * x^8` modulo the generator, by induction on the sequence, and it is of
lower degree. -/
theorem crcIsPolynomialRemainder : Obligations.CrcIsPolynomialRemainder := by
  change ∀ bytes, bytePoly (crc bytes) = (messagePoly bytes * X ^ 8) %ₘ generator
  intro bytes
  obtain ⟨q, hq⟩ := generator_dvd_crc bytes
  have hdivision : bytePoly (crc bytes) + generator * q = messagePoly bytes * X ^ 8 := by rw [← hq]; ring
  exact (div_modByMonic_unique q _ generator_monic ⟨hdivision, bytePoly_degree_lt _⟩).2.symm

end Sys2Proof.Machine
end

section
/-! SUPPORT. Proofs of the statements about the assembler (30_encoding.md R70, R71): each reader takes the text that the
writer of the same piece made, and a line's word is its command's encoding. -/

namespace Sys2Proof.Machine.Assembler

/-! ## Mnemonics (R70, R71) -/

section Mnemonics
variable (t : Text)

theorem assembleLine_NEW : assembleLine (['N', 'E', 'W', ' '] ++ t) = oneSlot .new (' ' :: t) := rfl
theorem assembleLine_UPD : assembleLine (['U', 'P', 'D', ' '] ++ t) = slotAndByte .upd (' ' :: t) := rfl
theorem assembleLine_REJ_TEXT :
    assembleLine (['R', 'E', 'J', '.', 'T', 'E', 'X', 'T', ' '] ++ t) = oneSlot .rejText (' ' :: t) := rfl
theorem assembleLine_REJ_OTHER :
    assembleLine (['R', 'E', 'J', '.', 'O', 'T', 'H', 'E', 'R', ' '] ++ t) = oneSlot .rejOther (' ' :: t) := rfl
theorem assembleLine_DIG : assembleLine (['D', 'I', 'G', ' '] ++ t) = oneSlot .dig (' ' :: t) := rfl
theorem assembleLine_HEX : assembleLine (['H', 'E', 'X', ' '] ++ t) = oneSlot .hex (' ' :: t) := rfl
theorem assembleLine_CPY : assembleLine (['C', 'P', 'Y', ' '] ++ t) = twoSlots .cpy (' ' :: t) := rfl
theorem assembleLine_REL : assembleLine (['R', 'E', 'L', ' '] ++ t) = oneSlot .rel (' ' :: t) := rfl
theorem assembleLine_ATTR_DSZ :
    assembleLine (['A', 'T', 'T', 'R', '.', 'D', 'S', 'Z', ' '] ++ t) = oneSlot .attrDsz (' ' :: t) := rfl
theorem assembleLine_ATTR_BSZ :
    assembleLine (['A', 'T', 'T', 'R', '.', 'B', 'S', 'Z', ' '] ++ t) = oneSlot .attrBsz (' ' :: t) := rfl
theorem assembleLine_CLONE : assembleLine (['C', 'L', 'O', 'N', 'E', ' '] ++ t) = twoSlots .cpy (' ' :: t) := rfl
theorem assembleLine_UPDATE :
    assembleLine (['U', 'P', 'D', 'A', 'T', 'E', ' '] ++ t) = slotAndData (' ' :: t) := rfl

end Mnemonics

/-! ## Slots -/

/-- A decimal literal ends where the text does not go on with a digit. -/
def EndsDecimal (t : Text) : Prop := ∀ c ∈ t.head?, decDigit c = none

theorem endsDecimal_nil : EndsDecimal [] := by simp [EndsDecimal]

theorem endsDecimal_comma (t : Text) : EndsDecimal (',' :: t) := by simp [EndsDecimal, decDigit]

/-- A decimal literal is read to its end, whatever the text after it is. -/
theorem readDecimal_append {u t : Text} (hu : ∀ c ∈ u, (decDigit c).isSome = true) (ht : EndsDecimal t) :
    readDecimal (u ++ t) = (readDecimal u).map fun p => (p.1, t) := by
  have htake : t.takeWhile (fun c => (decDigit c).isSome) = [] := by
    cases t with
    | nil => rfl
    | cons c t => simp [ht c rfl]
  have hdrop : t.dropWhile (fun c => (decDigit c).isSome) = t := by
    cases t with
    | nil => rfl
    | cons c t => simp [ht c rfl]
  simp only [readDecimal, List.takeWhile_append_of_pos hu, List.dropWhile_append_of_pos hu, htake, hdrop,
    List.append_nil, List.takeWhile_eq_self_iff.mpr hu]
  split
  · rfl
  · rfl
  · split <;> rfl

/-- The digits of a slot number and the number they are read as. -/
theorem readDecimal_digits : ∀ a < 16, (∀ c ∈ Nat.toDigits 10 a, (decDigit c).isSome = true) ∧
    readDecimal (Nat.toDigits 10 a) = some (a, []) := by
  intro a ha
  interval_cases a <;> exact ⟨List.all_eq_true.mp rfl, rfl⟩

theorem readSlot_slotText {a : Nat} {t : Text} (ha : a < 16) (ht : EndsDecimal t) :
    readSlot (slotText a ++ t) = some (a, t) := by
  have hs : expect 's' (slotText a ++ t) = some (Nat.toDigits 10 a ++ t) := rfl
  obtain ⟨hdigits, hvalue⟩ := readDecimal_digits a ha
  simp [readSlot, hs, readDecimal_append hdigits ht, hvalue, ha]

/-- A blank before a slot is skipped. -/
theorem readSlot_blank (t : Text) : readSlot (' ' :: t) = readSlot t := rfl

/-- The comma between two operands. -/
theorem expect_comma (t : Text) : expect ',' (',' :: t) = some t := rfl

/-! ## Bytes -/

theorem hexDigit_digitChar {n : Nat} (h : n < 16) : hexDigit n.digitChar = some n := by
  interval_cases n <;> rfl

theorem readByte_byteText (b : Byte) (t : Text) : readByte (byteText b ++ t) = some (b, t) := by
  have hpair : readByte (byteText b ++ t) =
      readHexPair ((b.toNat / 16).digitChar :: (b.toNat % 16).digitChar :: t) := rfl
  have hhigh : b.toNat / 16 < 16 := by have := b.isLt; omega
  have hlow : b.toNat % 16 < 16 := Nat.mod_lt _ (by decide)
  have hvalue : 16 * (b.toNat / 16) + b.toNat % 16 = b.toNat := Nat.div_add_mod _ _
  simp [hpair, readHexPair, hexDigit_digitChar hhigh, hexDigit_digitChar hlow, hvalue]

theorem readByte_blank (t : Text) : readByte (' ' :: t) = readByte t := rfl

/-! ## The data of UPDATE (R71) -/

/-- A byte list after its first byte. -/
def moreBytes (data : List Byte) : Text := data.flatMap fun b => [',', ' '] ++ byteText b

theorem bytesText_nil : bytesText [] = [openBrace, closeBrace] := rfl

theorem bytesText_cons (b : Byte) (data : List Byte) :
    bytesText (b :: data) = openBrace :: (byteText b ++ (moreBytes data ++ [closeBrace])) := by
  have hjoin : [',', ' '].intercalate (byteText b :: data.map byteText) = byteText b ++ moreBytes data := by
    induction data generalizing b with
    | nil => simp [moreBytes, List.intercalate]
    | cons c data ih =>
      rw [List.map_cons, List.intercalate_cons_cons, ih c]
      simp [moreBytes]
  rw [bytesText, List.map_cons, hjoin, List.append_assoc]

theorem readBytesAfter_moreBytes {data : List Byte} {fuel : Nat} (h : data.length < fuel) :
    readBytesAfter fuel (moreBytes data ++ [closeBrace]) = some (data, []) := by
  induction data generalizing fuel with
  | nil =>
    obtain ⟨fuel, rfl⟩ := Nat.exists_eq_succ_of_ne_zero (Nat.ne_zero_of_lt h)
    rfl
  | cons b data ih =>
    obtain ⟨fuel, rfl⟩ := Nat.exists_eq_succ_of_ne_zero (Nat.ne_zero_of_lt h)
    have htext : moreBytes (b :: data) ++ [closeBrace] =
        ',' :: ' ' :: (byteText b ++ (moreBytes data ++ [closeBrace])) := by
      simp [moreBytes]
    have hclose (u : Text) : expect closeBrace (',' :: u) = none := rfl
    have hrest := ih (Nat.lt_of_succ_lt_succ h)
    simp [htext, readBytesAfter, hclose, expect_comma, readByte_blank, readByte_byteText, hrest]

theorem length_le_moreBytes (data : List Byte) : data.length ≤ (moreBytes data).length := by
  induction data with
  | nil => exact Nat.zero_le _
  | cons b data ih =>
    simp only [moreBytes, List.flatMap_cons, List.length_append, List.length_cons] at ih ⊢
    omega

theorem readData_bytesText (data : List Byte) : readData (' ' :: bytesText data) = some (data, []) := by
  cases data with
  | nil => rfl
  | cons b data =>
    have hquote (u : Text) : expect '"' (' ' :: openBrace :: u) = none := rfl
    have hopen (u : Text) : expect openBrace (' ' :: openBrace :: u) = some u := rfl
    have hclose (u : Text) : expect closeBrace (byteText b ++ u) = none := rfl
    have hfuel : data.length < (moreBytes data ++ [closeBrace]).length := by
      rw [List.length_append]
      exact Nat.lt_succ_of_le (length_le_moreBytes data)
    simp only [bytesText_cons, readData, hquote, hopen, hclose, readByte_byteText, readBytesAfter_moreBytes hfuel,
      Option.bind_eq_bind, Option.bind_some]

/-- A printable character other than quote and backslash stands for its code in a string (R71). -/
theorem readString_cons {c : Char} {t : Text} (hprint : isPrintable c = true) (hquote : c ≠ '"') (hslash : c ≠ '\\') :
    readString (c :: t) = (readString t).map fun p => (charByte c :: p.1, p.2) := by
  rw [readString.eq_4 _ _ hquote (by simp [hslash]) (by simp [hslash])]
  cases readString t <;> simp [hprint]

theorem readString_text {text : Text} (h : ∀ c ∈ text, isPrintable c = true ∧ c ≠ '"' ∧ c ≠ '\\') :
    readString (text ++ ['"']) = some (text.map charByte, []) := by
  induction text with
  | nil => rfl
  | cons c text ih =>
    obtain ⟨⟨hprint, hquote, hslash⟩, htext⟩ := List.forall_mem_cons.mp h
    rw [List.cons_append, readString_cons hprint hquote hslash, ih htext]
    rfl

theorem readData_text {text : Text} (h : ∀ c ∈ text, isPrintable c = true ∧ c ≠ '"' ∧ c ≠ '\\') :
    readData (' ' :: '"' :: (text ++ ['"'])) = some (text.map charByte, []) :=
  readString_text h

/-! ## Operands -/

/-- A line may end after its operands. -/
theorem ended_nil {α : Type} (v : α) : ended (v, []) = some v := rfl

section Operands
variable {a d src : Nat}

theorem oneSlot_slotText (mk : Nat → Instr) (ha : a < 16) : oneSlot mk (' ' :: slotText a) = some [mk a] := by
  have hslot := readSlot_slotText ha endsDecimal_nil
  rw [List.append_nil] at hslot
  simp [oneSlot, readSlot_blank, hslot, ended_nil]

theorem twoSlots_slotText (mk : Nat → Nat → Instr) (hd : d < 16) (hs : src < 16) :
    twoSlots mk (' ' :: (slotText d ++ (',' :: ' ' :: slotText src))) = some [mk d src] := by
  have hsrc := readSlot_slotText hs endsDecimal_nil
  rw [List.append_nil] at hsrc
  simp [twoSlots, readSlot_blank, readSlot_slotText hd (endsDecimal_comma _), expect_comma, hsrc, ended_nil]

theorem slotAndByte_byteText (mk : Nat → Byte → Instr) (b : Byte) (ha : a < 16) :
    slotAndByte mk (' ' :: (slotText a ++ (',' :: ' ' :: byteText b))) = some [mk a b] := by
  have hbyte := readByte_byteText b []
  rw [List.append_nil] at hbyte
  simp [slotAndByte, readSlot_blank, readSlot_slotText ha (endsDecimal_comma _), expect_comma, readByte_blank, hbyte,
    ended_nil]

theorem slotAndData_of_readData {t : Text} {data : List Byte} (ha : a < 16) (ht : readData t = some (data, [])) :
    slotAndData (' ' :: (slotText a ++ (',' :: t))) = some (data.map (.upd a)) := by
  simp [slotAndData, readSlot_blank, readSlot_slotText ha (endsDecimal_comma _), expect_comma, ht, ended_nil]

end Operands

/-! ## Lines and words (R70) -/

/-- The line of a well-formed command assembles to that command. -/
theorem assembleLine_lineOf {i : Instr} (h : i.wellFormed = true) : assembleLine (lineOf i) = some [i] := by
  cases i with
  | new a => exact (assembleLine_NEW _).trans (oneSlot_slotText .new (lt_of_slotFits h))
  | upd a imm =>
    simp only [lineOf, List.append_assoc]
    exact (assembleLine_UPD _).trans (slotAndByte_byteText .upd imm (lt_of_slotFits h))
  | rejText a => exact (assembleLine_REJ_TEXT _).trans (oneSlot_slotText .rejText (lt_of_slotFits h))
  | rejOther a => exact (assembleLine_REJ_OTHER _).trans (oneSlot_slotText .rejOther (lt_of_slotFits h))
  | dig a => exact (assembleLine_DIG _).trans (oneSlot_slotText .dig (lt_of_slotFits h))
  | hex a => exact (assembleLine_HEX _).trans (oneSlot_slotText .hex (lt_of_slotFits h))
  | cpy d src =>
    obtain ⟨hd, hs⟩ := Bool.and_eq_true_iff.mp h
    simp only [lineOf, List.append_assoc]
    exact (assembleLine_CPY _).trans (twoSlots_slotText .cpy (lt_of_slotFits hd) (lt_of_slotFits hs))
  | rel a => exact (assembleLine_REL _).trans (oneSlot_slotText .rel (lt_of_slotFits h))
  | attrDsz a => exact (assembleLine_ATTR_DSZ _).trans (oneSlot_slotText .attrDsz (lt_of_slotFits h))
  | attrBsz a => exact (assembleLine_ATTR_BSZ _).trans (oneSlot_slotText .attrBsz (lt_of_slotFits h))

/-- The number of a word: its fields in their places (R61). -/
theorem word_toNat (op a : Nibble) (imm : Byte) :
    (word op a imm).toNat = 0x1000 * op.toNat + 0x100 * a.toNat + imm.toNat := by
  have hop := op.isLt
  have ha := a.isLt
  have himm := imm.isLt
  have hslot : op.toNat <<< 12 ||| a.toNat <<< 8 = (0x10 * op.toNat + a.toNat) <<< 8 := by
    rw [show op.toNat <<< 12 = (op.toNat <<< 4) <<< 8 from Nat.shiftLeft_add _ 4 8, ← Nat.shiftLeft_or_distrib,
      ← Nat.shiftLeft_add_eq_or_of_lt ha, Nat.shiftLeft_eq op.toNat, Nat.mul_comm]
  have hword : (word op a imm).toNat = op.toNat <<< 12 ||| a.toNat <<< 8 ||| imm.toNat := by
    have hop' : (op.toNat % 2 ^ 16) <<< 12 % 2 ^ 16 = op.toNat <<< 12 := by simp only [Nat.shiftLeft_eq]; omega
    have ha' : (a.toNat % 2 ^ 16) <<< 8 % 2 ^ 16 = a.toNat <<< 8 := by simp only [Nat.shiftLeft_eq]; omega
    have himm' : imm.toNat % 2 ^ 16 = imm.toNat := by omega
    simp only [word, BitVec.toNat_or, BitVec.toNat_shiftLeft, BitVec.toNat_setWidth, hop', ha', himm']
  rw [hword, hslot, ← Nat.shiftLeft_add_eq_or_of_lt himm, Nat.shiftLeft_eq]
  omega

theorem word_eq_ofNat {op : Nibble} {a : Nat} {imm : Byte} {n : Nat} (ha : a < 16)
    (hn : 0x1000 * op.toNat + 0x100 * a + imm.toNat = n) : word op (BitVec.ofNat 4 a) imm = BitVec.ofNat 16 n := by
  apply BitVec.eq_of_toNat_eq
  have hop := op.isLt
  have himm := imm.isLt
  rw [word_toNat, toNat_ofNat_slot ha, hn, BitVec.toNat_ofNat, Nat.mod_eq_of_lt (by omega)]

/-- The words that a line assembles to. -/
def wordsOfLine (line : Text) : Option (List CommandWord) := (assembleLine line).map (List.map encode)

theorem wordsOfLine_lineOf {i : Instr} (h : i.wellFormed = true) : wordsOfLine (lineOf i) = some [encode i] := by
  rw [wordsOfLine, assembleLine_lineOf h]
  rfl

/-- The line of a command with one slot operand gives the number that R70's table has for it. -/
theorem wordsOfLine_slotCommand {op : Nibble} {imm : Byte} {mk : Nat → Instr} (hc : IsSlotCommand op imm mk) {a n : Nat}
    (ha : a < 16) (hn : 0x1000 * op.toNat + 0x100 * a + imm.toNat = n) :
    wordsOfLine (lineOf (mk a)) = some [BitVec.ofNat 16 n] := by
  have hwf : (mk a).wellFormed = true := (hc.wellFormed_eq a).trans (decide_eq_true ha)
  rw [wordsOfLine_lineOf hwf, hc.encode_eq, word_eq_ofNat ha hn]

theorem sourceByte_toNat {src : Nat} (h : src < 16) : (sourceByte (BitVec.ofNat 4 src)).toNat = 0x10 * src := by
  simp only [sourceByte, BitVec.toNat_shiftLeft, BitVec.toNat_setWidth, toNat_ofNat_slot h, Nat.shiftLeft_eq]
  omega

/-! ## The statements -/

/-- Settles O27: a command's line assembles to the command, and its encoding is the sum of its fields in their
places. -/
theorem assemblerLinesGiveTheirWords : Obligations.AssemblerLinesGiveTheirWords := by
  intro a d src imm ha hd hs
  refine ⟨wordsOfLine_slotCommand isSlotCommand_new ha ?_, ?_, wordsOfLine_slotCommand isSlotCommand_rejText ha ?_,
    wordsOfLine_slotCommand isSlotCommand_rejOther ha ?_, wordsOfLine_slotCommand isSlotCommand_dig ha ?_,
    wordsOfLine_slotCommand isSlotCommand_hex ha ?_, ?_, wordsOfLine_slotCommand isSlotCommand_rel ha ?_,
    wordsOfLine_slotCommand isSlotCommand_attrDsz ha ?_, wordsOfLine_slotCommand isSlotCommand_attrBsz ha ?_⟩
  case refine_2 =>
    have hwf : (Instr.upd a imm).wellFormed = true := decide_eq_true ha
    exact (wordsOfLine_lineOf hwf).trans (by rw [encode, word_eq_ofNat ha rfl]; rfl)
  case refine_7 =>
    have hwf : (Instr.cpy d src).wellFormed = true :=
      Bool.and_eq_true_iff.mpr ⟨decide_eq_true hd, decide_eq_true hs⟩
    exact (wordsOfLine_lineOf hwf).trans (by rw [encode, word_eq_ofNat hd (by rw [sourceByte_toNat hs])]; rfl)
  all_goals simp only [BitVec.ofNat_eq_ofNat, BitVec.toNat_ofNat]; omega

/-- Settles O28: the reader of a string gives its characters' bytes, that of a list its bytes, and CLONE has CPY's
operands. -/
theorem pseudoInstructionsExpand : Obligations.PseudoInstructionsExpand := by
  refine ⟨fun a text ha htext => ?_, fun a data ha => ?_, fun d src hd hs => ?_⟩
  · simp only [List.append_assoc]
    refine (assembleLine_UPDATE _).trans ((slotAndData_of_readData ha (readData_text htext)).trans ?_)
    rw [List.map_map]
    rfl
  · simp only [List.append_assoc]
    exact (assembleLine_UPDATE _).trans (slotAndData_of_readData ha (readData_bytesText data))
  · simp only [List.append_assoc]
    exact (assembleLine_CLONE _).trans (twoSlots_slotText .cpy hd hs)

end Sys2Proof.Machine.Assembler
end
